-- ==== Sys2Proof/Word.lean ====
section
/-! DEFINITION. The word types of the ekoly-CA CORE: the 8-bit byte (00_scope.md rules R9, R10) and the
index of a general register (10_state.md rule R21). -/

namespace Sys2Proof

/-- `XLEN` (R9): register width in bits. -/
@[simp] abbrev Config.xlen : Nat := 8

/-- `BYTE` (R9): bits per addressable unit. -/
@[simp] abbrev Config.byteBits : Nat := 8

/-- `NREG` (R9, R21): the number of registers. -/
@[simp] abbrev Config.nreg : Nat := 8

/-- One byte: the contents of a register and of a memory location, an operand byte, an opcode byte (R10): a
register is as wide as the addressable unit.  Read as an unsigned integer 0..255 (R21). -/
abbrev Byte := BitVec Config.byteBits

/-- The index of one of the general registers (R21). -/
abbrev RegIdx := Fin Config.nreg

end Sys2Proof
end

