-- ==== Sys2Proof/Config.lean ====
section
/-! DEFINITION. The parameters of the hardware (00_scope.md rule R9): what stays fixed while the machine
runs.  `XLEN`, `BYTE` and `NREG` stand in Word.lean, where the types are made of them; `OPCODE_MAP` is the record
`OpcodeMap`, whose default value stands in Decode.lean, beside the decoder that uses it.  The parameters R9 marks
OPEN-with-default, those a claim may quantify over, are the record `OpenParams`. -/

namespace Sys2Proof

/-- The ten operations the dispatch table selects (R1, R66), in the order of R66's table. -/
inductive Op where
  | hlt | ldi | st | prn | mul | add | push | pop | call | ret
  deriving DecidableEq, Repr

/-- All ten operations, in the order of R66's table. -/
def Op.all : List Op := [.hlt, .ldi, .st, .prn, .mul, .add, .push, .pop, .call, .ret]

/-- The operand count of an operation: a property of the opcode found by table, not by bits of the opcode
byte (R62, the column "operand bytes" of R66). -/
def Op.operandCount : Op → Nat
  | .hlt => 0
  | .ldi => 2
  | .st => 2
  | .prn => 1
  | .mul => 2
  | .add => 2
  | .push => 1
  | .pop => 1
  | .call => 1
  | .ret => 0

/-- Does operand byte 2 of the operation name a register (R61: format `RR`)? -/
def Op.secondIsRegister : Op → Bool
  | .st => true
  | .mul => true
  | .add => true
  | .hlt => false
  | .ldi => false
  | .prn => false
  | .push => false
  | .pop => false
  | .call => false
  | .ret => false

/-- `OPCODE_MAP` (R9, R36, R66): the byte value `OP_*` of each of the ten operations.  It is configuration:
built once at machine construction, immutable thereafter. -/
structure OpcodeMap where
  hlt : Byte
  ldi : Byte
  st : Byte
  prn : Byte
  mul : Byte
  add : Byte
  push : Byte
  pop : Byte
  call : Byte
  ret : Byte
  deriving DecidableEq, Repr

/-- The opcode byte `OP_<o>` of an operation. -/
def OpcodeMap.byteOf (m : OpcodeMap) : Op → Byte
  | .hlt => m.hlt
  | .ldi => m.ldi
  | .st => m.st
  | .prn => m.prn
  | .mul => m.mul
  | .add => m.add
  | .push => m.push
  | .pop => m.pop
  | .call => m.call
  | .ret => m.ret

/-- The ten opcode bytes are pairwise distinct (R66, R67). -/
abbrev OpcodeMap.Distinct (m : OpcodeMap) : Prop := (Op.all.map m.byteOf).Nodup

/-- The three parameters R9 marks OPEN-with-default, under their names there.  The defaults are `opcodeMap`,
`Config.gprReset` and `Config.memReset`. -/
structure OpenParams where
  opcodeMap : OpcodeMap
  gprReset : Byte
  memReset : Byte
  deriving DecidableEq, Repr

/-- The values the model gives `STACK_WRAP`: the one this hardware takes (R9).  The spec only mentions another,
a fault, and gives it no info (DESIGN CHOICE, log entry 6). -/
inductive StackWrap where
  /-- Stack pointer arithmetic is modulo 256, without a fault. -/
  | wrap
  deriving DecidableEq, Repr

namespace Config

/-- `MEMSIZE` (R9): bytes of memory, at addresses 0..255 (R40). -/
@[simp] abbrev memSize : Nat := 256

/-- `SP_INDEX` (R9): the register used as stack pointer (R24). -/
abbrev spIndex : RegIdx := 7

/-- `SP_RESET` (R9, R38). -/
def spReset : Byte := 0xF4

/-- `LOAD_BASE` (R9, R172): the address where `load` places the first byte. -/
@[simp] abbrev loadBase : Nat := 0

/-- `PC_MAX` (R9, R26): the largest value the program counter, of 9 bits, can hold; the largest it reaches is 256.  The spec's
own decision D4 (DESIGN CHOICE, log entry 7). -/
def pcMax : Nat := 258

/-- `STACK_WRAP` (R9): stack pointer arithmetic at 0 and 255.  The spec's own decision D11 (DESIGN CHOICE, unsafe,
log entry 6). -/
abbrev stackWrap : StackWrap := .wrap

/-- `PC_RESET` (R9, R38).  The spec's own decision D5 (DESIGN CHOICE, log entry 2). -/
def pcReset : Nat := 0

/-- The default of `GPR_RESET` (R9, R38): the reset value of registers 0..6.  The spec's default, its own decision D6
(DESIGN CHOICE, unsafe, log entry 3). -/
def gprReset : Byte := 0

/-- The default of `MEM_RESET` (R9, R38): the reset value of every memory byte, and so what an address the
memory's list does not hold reads as.  The spec's default, its own decision D7 (DESIGN CHOICE, unsafe, log entry 4). -/
def memReset : Byte := 0

/-- `HLT_PC_ADVANCE` (R9, R100): what HLT adds to the program counter.  The spec's own decision D8
(DESIGN CHOICE, unsafe, log entry 5). -/
def hltPcAdvance : Nat := 0

end Config

end Sys2Proof
end

