-- ==== Sys2Proof/Machine/Flags.lean ====
section
/-! DEFINITION. The arithmetic of ADD, MUL and the stack pointer.  The machine has NO FLAGS (10_state.md rule
R29): no instruction produces a carry, overflow, zero or sign indication, so this file computes none.  Each
operation forms the exact integer result and keeps its remainder modulo 256; what stands above bit 7 is
recorded nowhere (R25, R112). -/

namespace Sys2Proof.Machine

/-- The remainder modulo 256 of an exact result (R25). -/
def wrap8 (n : Nat) : Byte := BitVec.ofNat 8 n

/-- `(p + q) mod 256` (R111). -/
def addWrap (p q : Byte) : Byte := wrap8 (p.toNat + q.toNat)

/-- `(p * q) mod 256` (R110). -/
def mulWrap (p q : Byte) : Byte := wrap8 (p.toNat * q.toNat)

/-- The stack pointer less one, as `STACK_WRAP` says: `(v - 1) mod 256`, 0 gives 255 (R25, R123; the spec's decision
D11: DESIGN CHOICE, unsafe, log entry 6). -/
def decWrap (v : Byte) : Byte :=
  match Config.stackWrap with
  | .wrap => wrap8 (v.toNat + 255)

/-- The stack pointer plus one, as `STACK_WRAP` says: `(v + 1) mod 256`, 255 gives 0 (R25, R123; DESIGN CHOICE,
unsafe, log entry 6). -/
def incWrap (v : Byte) : Byte :=
  match Config.stackWrap with
  | .wrap => wrap8 (v.toNat + 1)

end Sys2Proof.Machine
end

