-- ==== Sys2Proof/Machine/State.lean ====
section
/-! DEFINITION. The machine's state as plain data (10_state.md rules R20 to R39), the reasons a step can
stop, and the state right after reset (R38). -/

namespace Sys2Proof.Machine

/-- The run-state: exactly two values (R31). -/
inductive RunState where
  | running
  | halted
  deriving DecidableEq, Repr

/-- The three kinds of fatal fault (R140). -/
inductive FaultKind where
  /-- "memory access outside [0, memory size)" -/
  | outOfBounds
  /-- "register index outside [0,7]" -/
  | invalidRegister
  /-- "fetched byte has no registered handler" -/
  | illegalOpcode
  deriving DecidableEq, Repr

/-- The contents `(kind, info)` of the fault record (R32, R140): `info` is the offending address, operand
byte or opcode byte. -/
structure FaultRecord where
  kind : FaultKind
  info : Nat
  deriving DecidableEq, Repr

/-- Memory: the cells that differ from the default reset contents, by address (R34, R40).  An unlisted address
reads as `Config.memReset`. -/
abbrev Memory := List Host.Cell

/-- The one canonical form of a memory: addresses strictly rising and inside the address space (R40), no
cell equal to what an unlisted address reads as. -/
abbrev Memory.wf (m : Memory) : Prop :=
  m.Pairwise (fun c d => c.1 < d.1) ∧ ∀ c ∈ m, c.1 < Config.memSize ∧ c.2 ≠ Config.memReset

/-- The state of the machine: the five items of R20, and the output record `out` of R35, which is no state
of the block and which no step reads. -/
structure State where
  /-- The general registers `x[0]` .. `x[7]` (R21); `x[7]` is the stack pointer (R24). -/
  regs : Vector Byte Config.nreg
  /-- The program counter: an unsigned integer of 9 bits, 0..`Config.pcMax`, that does not wrap (R26, R28; held
  as a number, its range stated as what every step keeps: DESIGN CHOICE, log entry 7). -/
  pc : Nat
  /-- The memory `M` (R34). -/
  mem : Memory
  /-- The run-state (R31). -/
  run : RunState
  /-- The fault record (R32). -/
  fault : Option FaultRecord
  /-- The values handed to the output collaborator since reset, oldest first (R35; DEDUCED, log entry 19). -/
  out : List Byte
  deriving DecidableEq, Repr

/-- Why no step is enabled (R90).  Neither is raised by an instruction: the three faults of R140 are TAKEN,
as a next state with the fault record set (R148; DESIGN CHOICE, log entries 12 and 16). -/
inductive Fault where
  /-- Raised by `step` on a machine whose run-state is HALTED: it takes no step until `reset` (R31, R90).
  Safe: the model stops where the hardware stops. -/
  | halted
  /-- Raised by `step` on a machine whose fault record `r` is set: it takes no step until `reset` (R32, R90,
  R149).  Safe: the model stops where the hardware stops. -/
  | faulted (r : FaultRecord)
  deriving DecidableEq, Repr

/-- What the model gives no meaning. -/
inductive Refusal where
  /-- Raised by an arm of `exec` whose instruction has no meaning yet; no arm does.  Safe. -/
  | notModelled (mnemonic : String)
  /-- Raised by the host's `load` of `n` > 256 bytes, refused as a whole with memory unchanged (R172).
  Safe. -/
  | loadTooLong (n : Nat)
  deriving DecidableEq, Repr

/-- The memory with the byte `v` at every address of R40. -/
def Memory.filled (v : Byte) : Memory :=
  if v = Config.memReset then [] else (List.range Config.memSize).map fun a => (a, v)

/-- The machine right after `reset`, which is its construction (R38, R170), for any value of the parameters
`GPR_RESET` and `MEM_RESET` (R9).  `x[7]` = 0xF4 and RUNNING are the source's; the program counter is the spec's own
decision D5 (log entry 2). -/
def State.resetWith (gprReset memReset : Byte) : State where
  regs := (Vector.replicate Config.nreg gprReset).set Config.spIndex Config.spReset
  pc := Config.pcReset
  mem := Memory.filled memReset
  run := .running
  fault := none
  out := []

/-- The machine right after `reset`, at the default values of the parameters: registers 0 to 6 and every byte of
memory are 0, the spec's own decisions D6 and D7 (log entries 3, 4), and so no cell of memory is listed. -/
def State.reset : State := State.resetWith Config.gprReset Config.memReset

end Sys2Proof.Machine
end

