-- ==== Sys2Proof/Machine/Ops.lean ====
section
/-! DEFINITION. The named operations over memory and registers (00_scope.md rule R11, 10_state.md rule R23,
20_memory.md rule R41), the other updates of State, and taking a fault (60_exceptions.md rule R148). -/

namespace Sys2Proof.Machine

/-! ## Memory -/

/-- The byte at an address: the listed one, or the reset contents (R46). -/
def Memory.read : Memory → Nat → Byte
  | [], _ => Config.memReset
  | (k, v) :: m, a => if k = a then v else Memory.read m a

/-- Add a cell in front, unless it holds what an unlisted address reads as. -/
def Memory.cons (a : Nat) (v : Byte) (m : Memory) : Memory :=
  if v = Config.memReset then m else (a, v) :: m

/-- Store a byte at an address, keeping the canonical form. -/
def Memory.write : Memory → Nat → Byte → Memory
  | [], a, v => Memory.cons a v []
  | (k, w) :: m, a, v =>
    if a < k then Memory.cons a v ((k, w) :: m)
    else if a = k then Memory.cons a v m
    else (k, w) :: Memory.write m a v

/-- Store bytes at ascending addresses from `a`; a byte whose address is outside the memory is not stored. -/
def Memory.writeBytes : Memory → Nat → List Byte → Memory
  | m, _, [] => m
  | m, a, b :: bs =>
    Memory.writeBytes (if a < Config.memSize then m.write a b else m) (a + 1) bs

/-- The bytes at `n` ascending addresses from `a`, as far as they lie inside the memory. -/
def Memory.window (m : Memory) : Nat → Nat → List Byte
  | 0, _ => []
  | n + 1, a => if a < Config.memSize then m.read a :: Memory.window m n (a + 1) else []

/-! ## Registers -/

/-- `read_register(index)` (R23).  No register is hardwired. -/
def State.reg (s : State) (r : RegIdx) : Byte := s.regs[r]

/-- `write_register(index, value)` (R23). -/
def State.setReg (s : State) (r : RegIdx) (v : Byte) : State := { s with regs := s.regs.set r v }

/-- The stack pointer, `x[7]` (R24). -/
def State.sp (s : State) : Byte := s.reg Config.spIndex

/-- Decrement the stack pointer modulo 256 (R25, R120, R130). -/
def State.decSp (s : State) : State := s.setReg Config.spIndex (decWrap s.sp)

/-- Increment the stack pointer modulo 256 (R25, R121, R131). -/
def State.incSp (s : State) : State := s.setReg Config.spIndex (incWrap s.sp)

/-! ## The other updates -/

/-- `pc <- v` (R10). -/
def State.setPc (s : State) (v : Nat) : State := { s with pc := v }

/-- Sequential advance: ordinary integer addition, not modulo 256 (R28, R85). -/
def State.advance (s : State) (n : Nat) : State := s.setPc (s.pc + n)

/-- `M[a] <- v`. -/
def State.setByte (s : State) (a : Nat) (v : Byte) : State := { s with mem := s.mem.write a v }

/-- `Emit(v)` (R11): hand a byte to the `out` interface.  The host takes every value (R8; D17:
DESIGN CHOICE, unsafe, log entry 9). -/
def State.emit (s : State) (v : Byte) : State := { s with out := s.out ++ [v] }

/-- `run <- HALTED` (R100). -/
def State.halt (s : State) : State := { s with run := .halted }

/-! ## Memory accesses, with their bounds contract -/

/-- `MemRead(addr, 1)` (R11, R41). -/
def State.memRead (s : State) (a : Nat) : Except FaultRecord Byte :=
  if a < Config.memSize then .ok (s.mem.read a) else .error ⟨.outOfBounds, a⟩

/-- `MemWrite(addr, 1, v)` (R11, R41). -/
def State.memWrite (s : State) (a : Nat) (v : Byte) : Except FaultRecord State :=
  if a < Config.memSize then .ok (s.setByte a v) else .error ⟨.outOfBounds, a⟩

/-! ## Taking a fault -/

/-- `raise <Kind>(info)` (R11, R148): the one way a fault is taken.  The fault record is set and nothing else
changes: no vector, no saved-state area, no mode, and the run-state stays RUNNING.  There is no return from
a fault: only `reset` clears the record (R149). -/
def raise (r : FaultRecord) (s : State) : State := { s with fault := some r }

/-- End a step begun in `s`: with all its effects, or with the fault raised on the way taken in `s` itself,
so that a faulting step has none of them (R87, R148; D9: DESIGN CHOICE, unsafe, log entry 14). -/
def conclude (s : State) : Except FaultRecord State → Host.Outcome State Fault Refusal
  | .ok t => .next t
  | .error r => .next (raise r s)

/-- Why no step is enabled, if none is: the precondition of `Step()` (R80, R90). -/
def stopped (s : State) : Option Fault :=
  match s.fault, s.run with
  | some r, _ => some (.faulted r)
  | none, .halted => some .halted
  | none, .running => none

end Sys2Proof.Machine
end

