-- ==== Sys2Proof/Machine/Operands.lean ====
section
/-! DEFINITION. The operand forms (30_encoding.md rules R61 to R64).  There are two: a register operand, which
is the whole operand byte checked against 0..7, and the immediate of LDI, which is the operand byte as it
stands (R64) and so needs no operation.  There are no addressing modes. -/

namespace Sys2Proof.Machine

/-- `RegIndex(b)` (R11, R63, R84): the register an operand byte names. -/
def regIndex (b : Byte) : Except FaultRecord RegIdx :=
  if h : b.toNat < 8 then .ok ⟨b.toNat, h⟩ else .error ⟨.invalidRegister, b.toNat⟩

end Sys2Proof.Machine
end

