-- ==== Sys2Proof/Machine/Alu.lean ====
section
/-! DEFINITION. MUL, ADD (42_alu.md rules R110 to R113). -/

namespace Sys2Proof.Machine

/-- The shape MUL and ADD share: both sources are read before the destination `x[a]` is written. -/
def execArith (f : Byte → Byte → Byte) (a b : Byte) (s : State) : Host.Outcome State Fault Refusal :=
  conclude s do
    let ra ← regIndex a
    let rb ← regIndex b
    return (s.setReg ra (f (s.reg ra) (s.reg rb))).advance 3

/-- MUL a, b (R110). -/
def execMul (a b : Byte) (s : State) : Host.Outcome State Fault Refusal := execArith mulWrap a b s

/-- ADD a, b (R111). -/
def execAdd (a b : Byte) (s : State) : Host.Outcome State Fault Refusal := execArith addWrap a b s

end Sys2Proof.Machine
end

