-- ==== Sys2Proof/Machine/CallReturn.lean ====
section
/-! DEFINITION. CALL, RET (44_call_return.md rules R130 to R135). -/

namespace Sys2Proof.Machine

/-- The return address of a CALL, if it fits the one byte it is stored in (R130, R133; the fault at
`pc` = 254 is the spec's decision D12: DESIGN CHOICE, safe, log entry 11). -/
def returnAddress (s : State) : Except FaultRecord Byte :=
  if s.pc + 2 > 255 then .error ⟨.outOfBounds, s.pc + 2⟩ else .ok (wrap8 (s.pc + 2))

/-- CALL a (R130): the target `x[a]` is read after the decrement (D13: DESIGN CHOICE, unsafe, log entry 10). -/
def execCall (a : Byte) (s : State) : Host.Outcome State Fault Refusal :=
  conclude s do
    let r ← regIndex a
    let ret ← returnAddress s
    let t ← s.decSp.memWrite s.decSp.sp.toNat ret
    return t.setPc (t.reg r).toNat

/-- RET (R131): the byte at the top of the stack becomes the program counter, unchecked. -/
def execRet (s : State) : Host.Outcome State Fault Refusal :=
  conclude s do
    let v ← s.memRead s.sp.toNat
    return (s.setPc v.toNat).incSp

end Sys2Proof.Machine
end

