-- ==== Sys2Proof/Machine/Stack.lean ====
section
/-! DEFINITION. PUSH, POP (43_stack.md rules R120 to R124).  The order of the effects is the source's and
shows when `a = 7` (the spec's decision D13: DESIGN CHOICE, unsafe, log entry 10). -/

namespace Sys2Proof.Machine

/-- PUSH a (R120): `x[a]` is read after the decrement, and stored at the new stack pointer. -/
def execPush (a : Byte) (s : State) : Host.Outcome State Fault Refusal :=
  conclude s do
    let r ← regIndex a
    let t ← s.decSp.memWrite s.decSp.sp.toNat (s.decSp.reg r)
    return t.advance 2

/-- POP a (R121): `x[a]` is written before the increment, which reads `x[7]` afresh. -/
def execPop (a : Byte) (s : State) : Host.Outcome State Fault Refusal :=
  conclude s do
    let r ← regIndex a
    let v ← s.memRead s.sp.toNat
    return (s.setReg r v).incSp.advance 2

end Sys2Proof.Machine
end

