-- ==== Sys2Proof/Machine/SystemMoveOutput.lean ====
section
/-! DEFINITION. HLT, LDI, ST, PRN (41_system_move_output.md rules R100 to R103). -/

namespace Sys2Proof.Machine

/-- HLT (R100): the only transition to HALTED.  `Config.hltPcAdvance` is 0 (the spec's decision D8:
DESIGN CHOICE, unsafe, log entry 5). -/
def execHlt (s : State) : Host.Outcome State Fault Refusal :=
  .next (s.halt.advance Config.hltPcAdvance)

/-- LDI a, imm (R101). -/
def execLdi (a imm : Byte) (s : State) : Host.Outcome State Fault Refusal :=
  conclude s do
    let r ← regIndex a
    return (s.setReg r imm).advance 3

/-- ST a, b (R102). -/
def execSt (a b : Byte) (s : State) : Host.Outcome State Fault Refusal :=
  conclude s do
    let ra ← regIndex a
    let rb ← regIndex b
    let t ← s.memWrite (s.reg ra).toNat (s.reg rb)
    return t.advance 3

/-- PRN a (R103). -/
def execPrn (a : Byte) (s : State) : Host.Outcome State Fault Refusal :=
  conclude s do
    let r ← regIndex a
    return (s.emit (s.reg r)).advance 2

end Sys2Proof.Machine
end

