-- ==== Sys2Proof/Syntax.lean ====
section
/-! DEFINITION. The abstract syntax: one constructor per row of spec/opcode_table.json (30_encoding.md rule
R66).  An operand byte is kept as the whole byte it is: a register operand is not masked to three bits
(R63), and WellFormed.lean says which register operands are legal. -/

namespace Sys2Proof

/-- The ten instructions with their operand bytes (R60, R61, R66). -/
inductive Instr where
  /-- HLT (R100), format `Z`. -/
  | hlt
  /-- LDI a, imm (R101), format `RI`. -/
  | ldi (a imm : Byte)
  /-- ST a, b (R102), format `RR`. -/
  | st (a b : Byte)
  /-- PRN a (R103), format `R`. -/
  | prn (a : Byte)
  /-- MUL a, b (R110), format `RR`. -/
  | mul (a b : Byte)
  /-- ADD a, b (R111), format `RR`. -/
  | add (a b : Byte)
  /-- PUSH a (R120), format `R`. -/
  | push (a : Byte)
  /-- POP a (R121), format `R`. -/
  | pop (a : Byte)
  /-- CALL a (R130), format `R`. -/
  | call (a : Byte)
  /-- RET (R131), format `Z`. -/
  | ret
  deriving DecidableEq, Repr

/-- The operation of an instruction: the row of R66's table it belongs to. -/
def Instr.op : Instr → Op
  | .hlt => .hlt
  | .ldi _ _ => .ldi
  | .st _ _ => .st
  | .prn _ => .prn
  | .mul _ _ => .mul
  | .add _ _ => .add
  | .push _ => .push
  | .pop _ => .pop
  | .call _ => .call
  | .ret => .ret

/-- The operand bytes of an instruction, in encoding order (R60). -/
def Instr.operands : Instr → List Byte
  | .hlt => []
  | .ldi a imm => [a, imm]
  | .st a b => [a, b]
  | .prn a => [a]
  | .mul a b => [a, b]
  | .add a b => [a, b]
  | .push a => [a]
  | .pop a => [a]
  | .call a => [a]
  | .ret => []

/-- The operand bytes of an instruction that name a register (R61, R142), operand 1 before operand 2. -/
def Instr.registerOperands : Instr → List Byte
  | .hlt => []
  | .ldi a _ => [a]
  | .st a b => [a, b]
  | .prn a => [a]
  | .mul a b => [a, b]
  | .add a b => [a, b]
  | .push a => [a]
  | .pop a => [a]
  | .call a => [a]
  | .ret => []

end Sys2Proof
end

