-- ==== Sys2Proof/WellFormed.lean ====
section
/-! DEFINITION. When an instruction is well formed: every operand byte that names a register is a register
index 0..7 (30_encoding.md rules R61, R63).  The immediate of LDI has no illegal value (R64).  An ill-formed
instruction is still executed: its step raises `InvalidRegister` (60_exceptions.md rule R142). -/

namespace Sys2Proof

/-- A legal register operand byte: 0..7 (R61). -/
def regOk (b : Byte) : Bool := decide (b.toNat < 8)

/-- The well-formedness check, one conjunct per register operand of R142's list. -/
def Instr.wf : Instr → Bool
  | .hlt => true
  | .ldi a _ => regOk a
  | .st a b => regOk a && regOk b
  | .prn a => regOk a
  | .mul a b => regOk a && regOk b
  | .add a b => regOk a && regOk b
  | .push a => regOk a
  | .pop a => regOk a
  | .call a => regOk a
  | .ret => true

end Sys2Proof
end

