-- ==== Sys2Proof/Decode.lean ====
section
/-! DEFINITION. Decoding and encoding (30_encoding.md).  Both are written against an arbitrary opcode map
and then taken at the default map (R66).  The opcode byte is looked up whole (R82), the length is one plus
the operand count of the operation found (R62), and operand bytes are taken whole (R63, R64). -/

namespace Sys2Proof

/-- The default `OPCODE_MAP` (R66).  The source gives no opcode values; these are the spec's own default,
its decision D1 from general knowledge (DESIGN CHOICE, unsafe, log entry 1). -/
def opcodeMap : OpcodeMap where
  hlt := 0x01
  ldi := 0x82
  st := 0x84
  prn := 0x47
  mul := 0xA2
  add := 0xA0
  push := 0x45
  pop := 0x46
  call := 0x50
  ret := 0x11

/-- The values this hardware takes for the parameters R9 marks OPEN-with-default (log entries 1, 3, 4). -/
def openParams : OpenParams where
  opcodeMap := opcodeMap
  gprReset := Config.gprReset
  memReset := Config.memReset

/-- The dispatch table read from byte to operation (R36, R82): the operation whose opcode byte `b` is, if
there is one. -/
def OpcodeMap.lookup (m : OpcodeMap) (b : Byte) : Option Op := Op.all.find? fun o => m.byteOf o == b

/-- Why a byte sequence is not an instruction. -/
inductive DecodeError where
  /-- Byte `k` of the instruction is not there (0: the opcode, 1 or 2: an operand byte). -/
  | truncated (k : Nat)
  /-- The opcode byte is none of the ten (R68). -/
  | illegalOpcode (op : Byte)
  deriving DecidableEq, Repr

/-- Take the one operand byte of format `R` (R60). -/
def takeOne (f : Byte → Instr) : List Byte → Except DecodeError (Instr × List Byte)
  | a :: rest => .ok (f a, rest)
  | [] => .error (.truncated 1)

/-- Take the two operand bytes of formats `RR` and `RI`, operand byte 1 first (R60, R83). -/
def takeTwo (f : Byte → Byte → Instr) : List Byte → Except DecodeError (Instr × List Byte)
  | a :: b :: rest => .ok (f a b, rest)
  | [_] => .error (.truncated 2)
  | [] => .error (.truncated 1)

/-- The operand bytes of each operation (the format column of R66). -/
def decodeOperands : Op → List Byte → Except DecodeError (Instr × List Byte)
  | .hlt, rest => .ok (.hlt, rest)
  | .ldi, rest => takeTwo .ldi rest
  | .st, rest => takeTwo .st rest
  | .prn, rest => takeOne .prn rest
  | .mul, rest => takeTwo .mul rest
  | .add, rest => takeTwo .add rest
  | .push, rest => takeOne .push rest
  | .pop, rest => takeOne .pop rest
  | .call, rest => takeOne .call rest
  | .ret, rest => .ok (.ret, rest)

/-- Decode the first instruction of a byte sequence under an opcode map, with the bytes that follow it.
An unknown opcode is rejected before any operand byte is looked at (R143). -/
def decodeWith (m : OpcodeMap) : List Byte → Except DecodeError (Instr × List Byte)
  | [] => .error (.truncated 0)
  | b :: rest =>
    match m.lookup b with
    | none => .error (.illegalOpcode b)
    | some o => decodeOperands o rest

/-- The decoder under the default opcode map. -/
def decode (bs : List Byte) : Except DecodeError (Instr × List Byte) := decodeWith opcodeMap bs

/-- The encoding of an instruction under an opcode map: the opcode byte, then the operand bytes, at
ascending addresses (R60, R66). -/
def encodeWith (m : OpcodeMap) : Instr → List Byte
  | .hlt => [m.hlt]
  | .ldi a imm => [m.ldi, a, imm]
  | .st a b => [m.st, a, b]
  | .prn a => [m.prn, a]
  | .mul a b => [m.mul, a, b]
  | .add a b => [m.add, a, b]
  | .push a => [m.push, a]
  | .pop a => [m.pop, a]
  | .call a => [m.call, a]
  | .ret => [m.ret]

/-- The encoder under the default opcode map. -/
def encode (i : Instr) : List Byte := encodeWith opcodeMap i

/-- The three bytes an instruction of the opcode table occupies at most, from the table's number `w` of
`nbits` bits: bit 0 is the least significant bit of the opcode byte, the bits above `nbits` are 0. -/
def tableBytes (nbits w : Nat) : List Byte :=
  let v := w % 2 ^ nbits
  [BitVec.ofNat 8 v, BitVec.ofNat 8 (v / 2 ^ 8), BitVec.ofNat 8 (v / 2 ^ 16)]

/-- The instruction the decoder reads from a row of the opcode table. -/
def decodeTableWord (nbits w : Nat) : Option Instr :=
  match decode (tableBytes nbits w) with
  | .ok (i, _) => some i
  | .error _ => none

end Sys2Proof
end

