-- ==== Sys2Proof/Machine/Fetch.lean ====
section
/-! DEFINITION. Fetching an instruction (40_fetch_dispatch.md rules R81 to R83): its bytes are read from `M`
as it is at this step, all before the instruction writes anything (20_memory.md rules R53, R55; D9: DESIGN CHOICE,
unsafe, log entry 14).  The order of the checks is R147's (D10: DESIGN CHOICE, unsafe, log entry 15). -/

namespace Sys2Proof.Machine

/-- The bytes at `pc`, `pc + 1`, `pc + 2` that lie inside the memory; the sums do not wrap (R43). -/
def fetchBytes (s : State) : List Byte := s.mem.window 3 s.pc

/-- The fault a step raises where its bytes are no instruction: `OutOfBounds` with the address of the byte
that is not there (R81, R83), or `IllegalOpcode` with the opcode byte (R82). -/
def decodeFault (s : State) : DecodeError → FaultRecord
  | .truncated k => ⟨.outOfBounds, s.pc + k⟩
  | .illegalOpcode op => ⟨.illegalOpcode, op.toNat⟩

/-- Fetch, dispatch and operand fetch of `Step()` (R80) under an opcode map. -/
def fetchWith (m : OpcodeMap) (s : State) : Except FaultRecord Instr :=
  match decodeWith m (fetchBytes s) with
  | .ok (i, _) => .ok i
  | .error e => .error (decodeFault s e)

end Sys2Proof.Machine
end

