-- ==== Sys2Proof/Machine/Step.lean ====
section
/-! DEFINITION. One step: the complete execution of one instruction (00_scope.md rule R6, 40_fetch_dispatch.md
rule R80). -/

namespace Sys2Proof.Machine

/-- `Step()` (R80) under an opcode map: no step where the machine is HALTED or faulted (R90), else the fault
of the fetch taken, else the instruction's own rule, which validates the register operands first (R84). -/
def stepWith (m : OpcodeMap) (s : State) : Host.Outcome State Fault Refusal :=
  match stopped s with
  | some f => .fault f
  | none =>
    match fetchWith m s with
    | .ok i => exec i s
    | .error r => .next (raise r s)

/-- `Step()` under the default opcode map (R66). -/
def step (s : State) : Host.Outcome State Fault Refusal := stepWith opcodeMap s

/-- Place the instruction of an opcode-table row at the program counter, where the next step fetches.  It
stands for the host's `load` (R172; DEDUCED, log entry 8). -/
def State.withFetchWord (s : State) (nbits w : Nat) : State :=
  { s with mem := s.mem.writeBytes s.pc (tableBytes nbits w) }

end Sys2Proof.Machine
end

