-- ==== Sys2Proof/Machine/Interface.lean ====
section
/-! DEFINITION. The interfaces of the block (00_scope.md rule R7) other than the step itself: what the host
may do between steps (70_reset_and_hazards.md rule R176; DEDUCED, log entry 20) and what it may read. -/

namespace Sys2Proof.Machine

/-- The number of a fault kind on the `status` interface (R140; the spec's decision D14: DESIGN CHOICE, log entry 12). -/
def FaultKind.code : FaultKind → Nat
  | .outOfBounds => 1
  | .invalidRegister => 2
  | .illegalOpcode => 3

/-- What the `status` interface carries (R7): the run-state and the fault record. -/
structure Status where
  run : RunState
  fault : Option FaultRecord
  deriving DecidableEq, Repr

/-- Read `status`; it has no effect (R176). -/
def State.status (s : State) : Status := ⟨s.run, s.fault⟩

/-- `load(bytes)` (R172): the bytes are placed from `LOAD_BASE`, overwriting, and nothing else changes; more
than 256 bytes are refused as a whole (the spec's decision D16: DESIGN CHOICE, safe, log entry 13).  On a HALTED or
faulted machine it writes the memory as on any other, and leaves the stop as it is: R156 can be read to forbid that
(the model's own reading: DESIGN CHOICE, unsafe, log entry 21). -/
def load (bytes : List Byte) (s : State) : Host.Outcome State Fault Refusal :=
  if bytes.length ≤ Config.memSize then
    .next { s with mem := s.mem.writeBytes Config.loadBase bytes }
  else .refused (.loadTooLong bytes.length)

/-- The run loop (R88) under an opcode map, with the host's `stop` honoured at the instruction boundary after
`n` steps (R91; D18: DESIGN CHOICE, log entry 17): it ends there, or where no step is enabled (R90).  `run` resets nothing. -/
def runWith (m : OpcodeMap) : Nat → State → State
  | 0, s => s
  | n + 1, s =>
    match stepWith m s with
    | .next t => runWith m n t
    | .fault _ => s
    | .refused _ => s

/-- The host's actions on the machine (R176).  Reading `status` and consuming an `out` value change no state
(R8, R176) and are no actions here. -/
inductive HostAction where
  | reset
  | load (bytes : List Byte)
  /-- `run`, then `stop` after at most `n` steps (R88, R91). -/
  | run (n : Nat)
  deriving DecidableEq, Repr

/-- The effect of a host action (R170, R172, R88) on a machine with these parameters. -/
def actWith (p : OpenParams) (s : State) : HostAction → Host.Outcome State Fault Refusal
  | .reset => .next (State.resetWith p.gprReset p.memReset)
  | .load bytes => load bytes s
  | .run n => .next (runWith p.opcodeMap n s)

end Sys2Proof.Machine
end

