-- ==== Sys2Proof/Safety.lean ====
section
/-! DEFINITION. The terms the claims use: when a machine can step, how a run ends, the invariant of the
machine, what it is to raise a fault, and the effect each instruction's rule gives it, field by field. -/

namespace Sys2Proof.Machine

/-! ## Runs -/

/-- The precondition of `Step()` (R80): RUNNING and no fault. -/
abbrev State.canStep (s : State) : Prop := s.run = .running ∧ s.fault = none

/-- A run has ended successfully (R89). -/
abbrev State.succeeded (s : State) : Prop := s.run = .halted ∧ s.fault = none

/-- A run has failed: the fault record tells the host so, the run-state stays RUNNING (R32, R148). -/
abbrev State.failed (s : State) : Prop := s.fault ≠ none

/-- `n` instructions executed one after another, as a list, stopping at nothing but a machine stop. -/
def execAll : List Instr → State → Host.Outcome State Fault Refusal
  | [], s => .next s
  | i :: is, s =>
    match exec i s with
    | .next t => execAll is t
    | .fault f => .fault f
    | .refused r => .refused r

/-! ## The invariant -/

/-- The records execution can leave: `OutOfBounds` with address 256 (R140, R141), `InvalidRegister` with an
operand byte 8..255 (R142), `IllegalOpcode` with a byte the opcode map does not hold (R143). -/
def FaultRecord.legal (m : OpcodeMap) (r : FaultRecord) : Bool :=
  match r.kind with
  | .outOfBounds => r.info == 256
  | .invalidRegister => decide (8 ≤ r.info ∧ r.info ≤ 255)
  | .illegalOpcode => decide (r.info ≤ 255) && (m.lookup (BitVec.ofNat 8 r.info)).isNone

/-- What holds of every state execution reaches: the memory is in canonical form inside the address space
(R40), the program counter is at most 256 (R26), a HALTED machine has no fault (R32, R147), and a recorded
fault is one of R140's. -/
abbrev State.Inv (m : OpcodeMap) (s : State) : Prop :=
  s.mem.wf ∧ s.pc ≤ 256 ∧ (s.run = .halted → s.fault = none) ∧ s.fault.all (FaultRecord.legal m) = true

/-! ## Raising and fetching -/

/-- The outcome `raise <kind>(info)` of a step begun in `s`: the fault record is set and nothing else has
changed (R11, R148). -/
abbrev Raises (o : Host.Outcome State Fault Refusal) (s : State) (kind : FaultKind) (info : Nat) : Prop :=
  o = .next { s with fault := some ⟨kind, info⟩ }

/-- The fetch part of `Step()` (R80 to R83) for the operation `o`: `OutOfBounds(pc)` where the opcode lies
beyond memory, else, where the opcode byte is that of `o`, `OutOfBounds` of the first operand byte beyond
memory, else the operation is executed with the bytes at `pc + 1` and `pc + 2`. -/
def StepsAs (m : OpcodeMap) (o : Op) (s : State)
    (meaning : Byte → Byte → Host.Outcome State Fault Refusal) : Prop :=
  (256 ≤ s.pc → Raises (stepWith m s) s .outOfBounds s.pc) ∧
  (s.pc < 256 → s.mem.read s.pc = m.byteOf o →
    (1 ≤ o.operandCount → s.pc + 1 = 256 → Raises (stepWith m s) s .outOfBounds (s.pc + 1)) ∧
    (o.operandCount = 2 → s.pc + 2 = 256 → Raises (stepWith m s) s .outOfBounds (s.pc + 2)) ∧
    (s.pc + o.operandCount < 256 →
      stepWith m s = meaning (s.mem.read (s.pc + 1)) (s.mem.read (s.pc + 2))))

/-! ## Frames -/

/-- Every byte of memory reads as before. -/
abbrev SameMem (s t : State) : Prop := ∀ a, t.mem.read a = s.mem.read a

/-- `v` is stored at `a` and every byte at another address reads as before. -/
abbrev StoredOnly (a : Nat) (v : Byte) (s t : State) : Prop :=
  t.mem.read a = v ∧ ∀ b, b ≠ a → t.mem.read b = s.mem.read b

/-- Run-state and fault record are as before. -/
abbrev SameStatus (s t : State) : Prop := t.run = s.run ∧ t.fault = s.fault

/-! ## The effect of each instruction -/

/-- HLT (R100). -/
structure HltEffect (s t : State) : Prop where
  run : t.run = .halted
  pc : t.pc = s.pc
  regs : ∀ q, t.reg q = s.reg q
  mem : SameMem s t
  fault : t.fault = s.fault
  out : t.out = s.out

/-- LDI a, imm (R101). -/
structure LdiEffect (a : RegIdx) (imm : Byte) (s t : State) : Prop where
  dest : t.reg a = imm
  regs : ∀ q, q ≠ a → t.reg q = s.reg q
  pc : t.pc = s.pc + 3
  mem : SameMem s t
  status : SameStatus s t
  out : t.out = s.out

/-- ST a, b (R102): `M[x[a]] <- x[b]`. -/
structure StEffect (a b : RegIdx) (s t : State) : Prop where
  stored : StoredOnly (s.reg a).toNat (s.reg b) s t
  regs : ∀ q, t.reg q = s.reg q
  pc : t.pc = s.pc + 3
  status : SameStatus s t
  out : t.out = s.out

/-- PRN a (R103). -/
structure PrnEffect (a : RegIdx) (s t : State) : Prop where
  out : t.out = s.out ++ [s.reg a]
  regs : ∀ q, t.reg q = s.reg q
  pc : t.pc = s.pc + 2
  mem : SameMem s t
  status : SameStatus s t

/-- ADD and MUL (R110, R111), with the exact result `n` of the two source registers: `x[a] <- n mod 256`. -/
structure ArithEffect (a : RegIdx) (n : Nat) (s t : State) : Prop where
  dest : (t.reg a).toNat = n % 256
  regs : ∀ q, q ≠ a → t.reg q = s.reg q
  pc : t.pc = s.pc + 3
  mem : SameMem s t
  status : SameStatus s t
  out : t.out = s.out

/-- PUSH a (R120): the stack pointer goes down by one modulo 256 (subtraction of bytes) and `x[a]`, read after
that, is stored at the new stack pointer. -/
structure PushEffect (a : RegIdx) (s t : State) : Prop where
  sp : t.sp = s.sp - 1
  stored : StoredOnly (s.sp - 1).toNat (if a = 7 then s.sp - 1 else s.reg a) s t
  regs : ∀ q, q ≠ 7 → t.reg q = s.reg q
  pc : t.pc = s.pc + 2
  status : SameStatus s t
  out : t.out = s.out

/-- POP a (R121): the byte at the stack pointer goes to `x[a]`, and the stack pointer as it then is goes up by
one modulo 256. -/
structure PopEffect (a : RegIdx) (s t : State) : Prop where
  dest : a ≠ 7 → t.reg a = s.mem.read s.sp.toNat
  sp : t.sp = (if a = 7 then s.mem.read s.sp.toNat else s.sp) + 1
  regs : ∀ q, q ≠ a → q ≠ 7 → t.reg q = s.reg q
  pc : t.pc = s.pc + 2
  mem : SameMem s t
  status : SameStatus s t
  out : t.out = s.out

/-- CALL a (R130): the stack pointer goes down by one modulo 256, the return address `pc + 2` is stored at the
new stack pointer, and `x[a]`, read after the decrement, becomes the program counter. -/
structure CallEffect (a : RegIdx) (s t : State) : Prop where
  sp : t.sp = s.sp - 1
  stored : StoredOnly (s.sp - 1).toNat (BitVec.ofNat 8 (s.pc + 2)) s t
  pc : t.pc = (if a = 7 then s.sp - 1 else s.reg a).toNat
  regs : ∀ q, q ≠ 7 → t.reg q = s.reg q
  status : SameStatus s t
  out : t.out = s.out

/-- RET (R131). -/
structure RetEffect (s t : State) : Prop where
  pc : t.pc = (s.mem.read s.sp.toNat).toNat
  sp : t.sp = s.sp + 1
  regs : ∀ q, q ≠ 7 → t.reg q = s.reg q
  mem : SameMem s t
  status : SameStatus s t
  out : t.out = s.out

end Sys2Proof.Machine
end

