-- ==== Sys2Proof/Certificates/Slice0/Obligations.lean ====
section
/-! DEFINITION. The statements for the provers.  Each docstring names the rule of spec/ it formalises, and says
where it rests on one of the spec's own decisions (D<n> of 92_eei_decisions.md) or on the model's choice.
Statements about opcode bytes quantify over every opcode map whose ten bytes are distinct (R9, R66). -/

open Sys2Proof Sys2Proof.Machine

/-! ## Encoding -/

/-- R67 for the default map: the ten opcode bytes are distinct.  Rests on the spec's decision D1 (log entry
1): the bytes are general knowledge. -/
def Obligations.DefaultOpcodeBytesAreDistinct : Prop := opcodeMap.Distinct

/-- Words written out from R60's formats and R66's default bytes decode to the instructions they stand for,
one per family; the byte after the instruction is left.  Rests on D1 (log entry 1). -/
def Obligations.WrittenOutWordsDecode : Prop :=
  decode [0b00000001] = .ok (.hlt, []) ∧
  decode [0b10000010, 0x03, 0xFF, 0x99] = .ok (.ldi 3 0xFF, [0x99]) ∧
  decode [0b10000100, 0x06, 0x05] = .ok (.st 6 5, []) ∧
  decode [0b01000111, 0x07] = .ok (.prn 7, []) ∧
  decode [0b10100010, 0x01, 0x02] = .ok (.mul 1 2, []) ∧
  decode [0b10100000, 0x02, 0x01] = .ok (.add 2 1, []) ∧
  decode [0b01000101, 0x04] = .ok (.push 4, []) ∧
  decode [0b01000110, 0x02] = .ok (.pop 2, []) ∧
  decode [0b01010000, 0x01] = .ok (.call 1, []) ∧
  decode [0b00010001] = .ok (.ret, [])

/-- Decode and encode agree (R60, R61, R66, R67): under every opcode map with distinct bytes, the encoding of an
instruction followed by any bytes decodes to that instruction and leaves those bytes, with every operand byte
at every value. -/
def Obligations.DecodeOfEncodeIsTheInstruction : Prop :=
  ∀ (m : OpcodeMap), m.Distinct → ∀ (i : Instr) (rest : List Byte),
    decodeWith m (encodeWith m i ++ rest) = .ok (i, rest)

/-- The other direction (R69: no alternative encodings): bytes that decode are the encoding of what they decode
to, followed by the bytes left. -/
def Obligations.DecodedBytesAreTheEncoding : Prop :=
  ∀ (m : OpcodeMap) (bs rest : List Byte) (i : Instr),
    decodeWith m bs = .ok (i, rest) → bs = encodeWith m i ++ rest

/-- R68's count: under every opcode map with distinct bytes, exactly 246 of the 256 byte values select no
operation. -/
def Obligations.IllegalOpcodeBytesAre246 : Prop :=
  ∀ (m : OpcodeMap), m.Distinct →
    ((Finset.univ : Finset (Fin 256)).filter fun b => m.lookup (BitVec.ofFin b) = none).card = 246

/-! ## The step -/

/-- A step runs the decoded instruction (R80): where the machine can step and the bytes at the program counter
decode to an instruction, the step is that instruction's meaning in that state, with nothing around it. -/
def Obligations.StepRunsTheDecodedInstruction : Prop :=
  (∀ (m : OpcodeMap) (s : State) (i : Instr) (rest : List Byte),
    s.canStep → decodeWith m (fetchBytes s) = .ok (i, rest) → stepWith m s = exec i s) ∧
  ∀ s, step s = stepWith opcodeMap s

/-- R60, R80, R83: where memory holds the encoding of an instruction at the program counter, all of it inside
memory, a machine that can step executes that instruction. -/
def Obligations.StepRunsTheInstructionInMemory : Prop :=
  ∀ (m : OpcodeMap), m.Distinct → ∀ (s : State) (i : Instr), s.canStep →
    s.pc + (encodeWith m i).length ≤ 256 →
    (∀ k (h : k < (encodeWith m i).length), s.mem.read (s.pc + k) = (encodeWith m i)[k]) →
    stepWith m s = exec i s

/-- R81: the opcode is the byte `M[pc]` as it is at this step; where `pc` is 256 or more, the step raises
`OutOfBounds(pc)`. -/
def Obligations.OpcodeIsFetchedAtThePc : Prop :=
  ∀ (m : OpcodeMap) (s : State), s.canStep →
    (256 ≤ s.pc → Raises (stepWith m s) s .outOfBounds s.pc) ∧
    (s.pc < 256 → ∀ i, fetchWith m s = .ok i → m.byteOf i.op = s.mem.read s.pc)

/-- R143: a fetched byte that is none of the ten opcode bytes raises `IllegalOpcode` with that byte, at address
255 too; the run-state stays RUNNING. -/
def Obligations.IllegalOpcodeRaises : Prop :=
  ∀ (m : OpcodeMap) (s : State), s.canStep → s.pc < 256 →
    (∀ o, m.byteOf o ≠ s.mem.read s.pc) →
    Raises (stepWith m s) s .illegalOpcode (s.mem.read s.pc).toNat

/-- R142: an instruction with an operand byte of 8..255 where a register is named raises `InvalidRegister` with
such a byte as info and has no effect; an instruction with none never raises it. -/
def Obligations.InvalidRegisterRaises : Prop :=
  (∀ (i : Instr) (s : State), (∃ b ∈ i.registerOperands, 8 ≤ b.toNat) →
    ∃ b ∈ i.registerOperands, 8 ≤ b.toNat ∧ Raises (exec i s) s .invalidRegister b.toNat) ∧
  (∀ (i : Instr) (s t : State) (n : Nat), (∀ b ∈ i.registerOperands, b.toNat < 8) → s.fault = none →
    exec i s = .next t → t.fault ≠ some ⟨.invalidRegister, n⟩)

/-- The order of R147, which is the spec's decision D10 (log entry 15): opcode fetch, opcode legality, operand byte 1, operand
byte 2, register 1, register 2, the return address of CALL (D12, log entry 11); where none of the conditions holds, the step
completes without a fault. -/
def Obligations.FaultsAreRaisedInOrder : Prop :=
  ∀ (m : OpcodeMap), m.Distinct → ∀ (s : State), s.canStep →
    (256 ≤ s.pc → Raises (stepWith m s) s .outOfBounds s.pc) ∧
    (s.pc < 256 → (∀ o, m.byteOf o ≠ s.mem.read s.pc) →
      Raises (stepWith m s) s .illegalOpcode (s.mem.read s.pc).toNat) ∧
    (∀ o, s.pc < 256 → m.byteOf o = s.mem.read s.pc →
      (1 ≤ o.operandCount → s.pc + 1 = 256 → Raises (stepWith m s) s .outOfBounds (s.pc + 1)) ∧
      (o.operandCount = 2 → s.pc + 2 = 256 → Raises (stepWith m s) s .outOfBounds (s.pc + 2)) ∧
      (s.pc + o.operandCount < 256 →
        (1 ≤ o.operandCount → 8 ≤ (s.mem.read (s.pc + 1)).toNat →
          Raises (stepWith m s) s .invalidRegister (s.mem.read (s.pc + 1)).toNat) ∧
        (o.secondIsRegister → (s.mem.read (s.pc + 1)).toNat < 8 → 8 ≤ (s.mem.read (s.pc + 2)).toNat →
          Raises (stepWith m s) s .invalidRegister (s.mem.read (s.pc + 2)).toNat) ∧
        (o = .call → (s.mem.read (s.pc + 1)).toNat < 8 → s.pc = 254 →
          Raises (stepWith m s) s .outOfBounds 256) ∧
        ((1 ≤ o.operandCount → (s.mem.read (s.pc + 1)).toNat < 8) →
          (o.secondIsRegister → (s.mem.read (s.pc + 2)).toNat < 8) → ¬ (o = .call ∧ s.pc = 254) →
          ∃ t, stepWith m s = .next t ∧ t.fault = none)))

/-- R87, R148 (the spec's decision D9, log entry 14): a machine that can step always answers a next state, and that state
either has no fault or differs from the one before in the fault record alone. -/
def Obligations.AStepCompletesOrChangesOnlyTheFaultRecord : Prop :=
  ∀ (m : OpcodeMap) (s : State), s.canStep →
    ∃ t, stepWith m s = .next t ∧ (t.fault = none ∨ ∃ r, t = { s with fault := some r })

/-- R90 (the spec's decision D15, log entry 16): a HALTED or faulted machine takes no step, any other machine takes one, and `run` on it changes
nothing. -/
def Obligations.AStoppedMachineTakesNoStep : Prop :=
  ∀ (m : OpcodeMap) (s : State),
    (∀ r, s.fault = some r → stepWith m s = .fault (.faulted r)) ∧
    (s.fault = none → s.run = .halted → stepWith m s = .fault .halted) ∧
    ((∃ t, stepWith m s = .next t) ↔ s.canStep) ∧
    (¬ s.canStep → ∀ n, runWith m n s = s)

/-- R31: a step leaves the machine HALTED exactly where the opcode it fetched is HLT's; no other opcode changes
the run-state, and no step starts in HALTED. -/
def Obligations.HltIsTheOnlyWayToHalted : Prop :=
  ∀ (m : OpcodeMap), m.Distinct → ∀ (s t : State), stepWith m s = .next t →
    s.run = .running ∧ (t.run = .halted ↔ s.pc < 256 ∧ s.mem.read s.pc = m.hlt)

/-- R85: a completed LDI, ST, MUL or ADD leaves `pc + 3`, a completed PRN, PUSH or POP leaves `pc + 2`, where
`pc` is the address of the opcode. -/
def Obligations.CompletedInstructionsAdvanceThePc : Prop :=
  ∀ (m : OpcodeMap), m.Distinct → ∀ (s t : State), stepWith m s = .next t → t.fault = none →
    (s.mem.read s.pc ∈ [m.ldi, m.st, m.mul, m.add] → t.pc = s.pc + 3) ∧
    (s.mem.read s.pc ∈ [m.prn, m.push, m.pop] → t.pc = s.pc + 2)

/-- The write side of R34 and R40: a step changes no byte of memory but the one at `x[a]` (ST a, b) or at the
decremented stack pointer (PUSH, CALL), and none where it takes a fault (the precision is the spec's decision D9, log
entry 14; the wrap of the stack pointer D11, log entry 6).  `s.mem.wf` is part of the invariant of EveryStepKeepsTheInvariant. -/
def Obligations.OnlyStPushCallWriteMemory : Prop :=
  ∀ (m : OpcodeMap), m.Distinct → ∀ (s t : State), s.mem.wf → stepWith m s = .next t →
    ∀ a, t.mem.read a ≠ s.mem.read a →
      t.fault = none ∧ s.pc < 256 ∧
      ((s.mem.read s.pc = m.st ∧
          ∃ r : RegIdx, (s.mem.read (s.pc + 1)).toNat = r.val ∧ a = (s.reg r).toNat) ∨
        ((s.mem.read s.pc = m.push ∨ s.mem.read s.pc = m.call) ∧ a = (s.sp - 1).toNat))

/-- The "registers written" column of R23: a step changes no register but `x[a]` of LDI, MUL, ADD or POP, and
`x[7]` of PUSH, POP, CALL or RET. -/
def Obligations.RegistersAreWrittenAsTabled : Prop :=
  ∀ (m : OpcodeMap), m.Distinct → ∀ (s t : State), stepWith m s = .next t →
    ∀ q : RegIdx, t.reg q ≠ s.reg q →
      s.pc < 256 ∧
      ((s.mem.read s.pc ∈ [m.ldi, m.mul, m.add, m.pop] ∧ (s.mem.read (s.pc + 1)).toNat = q.val) ∨
        (s.mem.read s.pc ∈ [m.push, m.pop, m.call, m.ret] ∧ q = 7))

/-- R35, R103: the output record only grows, by one byte a step, and only where the opcode is PRN's: by the
register its operand byte names. -/
def Obligations.OnlyPrnEmits : Prop :=
  ∀ (m : OpcodeMap), m.Distinct → ∀ (s t : State), stepWith m s = .next t →
    t.out = s.out ∨
    (s.pc < 256 ∧ s.mem.read s.pc = m.prn ∧
      ∃ r : RegIdx, (s.mem.read (s.pc + 1)).toNat = r.val ∧ t.out = s.out ++ [s.reg r])

/-- R35: the output record is not readable by the machine and influences no step: after another output history,
the step is the same step, with that history in front. -/
def Obligations.OutputInfluencesNoStep : Prop :=
  ∀ (m : OpcodeMap) (s : State) (before : List Byte),
    (∀ t, stepWith m s = .next t →
      stepWith m { s with out := before ++ s.out } = .next { t with out := before ++ t.out }) ∧
    (∀ f, stepWith m s = .fault f → stepWith m { s with out := before ++ s.out } = .fault f)

/-! ## The invariant -/

/-- Every step keeps the invariant: canonical memory inside the address space (R40), a program counter of at most
256 (R26; D4, log entry 7), no fault in HALTED (R32), and only faults of R140. -/
def Obligations.EveryStepKeepsTheInvariant : Prop :=
  ∀ (s t : State), s.Inv opcodeMap → step s = .next t → t.Inv opcodeMap

/-- The range of the program counter (R26; `PC_MAX` and what is reached below it are the spec's decision D4, log
entry 7): a step begun with a program counter of at most `PC_MAX` leaves one, and leaves at most 256 where it takes no
fault. -/
def Obligations.ThePcStaysInItsRange : Prop :=
  ∀ (m : OpcodeMap) (s t : State), s.pc ≤ Config.pcMax → stepWith m s = .next t →
    t.pc ≤ Config.pcMax ∧ (t.fault = none → t.pc ≤ 256)

/-- The state after reset meets the invariant, under every opcode map and for every value of the other parameters
R9 leaves open. -/
def Obligations.ResetMeetsTheInvariant : Prop :=
  State.reset.Inv opcodeMap ∧
  ∀ p : OpenParams, (State.resetWith p.gprReset p.memReset).Inv p.opcodeMap

/-- Every host action (R176), a run of any length among them, keeps the invariant, for every value of the parameters
R9 leaves open. -/
def Obligations.EveryHostActionKeepsTheInvariant : Prop :=
  ∀ (p : OpenParams) (s t : State) (act : HostAction), s.Inv p.opcodeMap → actWith p s act = .next t →
    t.Inv p.opcodeMap

/-! ## The ten instructions

Each: where it completes and with what effect and frame; the register operands that stop it; the fetch of its
bytes. -/

/-- R100.  That the program counter stays at the HLT is the spec's decision D8 (log entry 5). -/
def Obligations.HltHalts : Prop :=
  (∀ s, ∃ t, exec .hlt s = .next t ∧ HltEffect s t) ∧
  (∀ (m : OpcodeMap), m.Distinct → ∀ s, s.canStep → StepsAs m .hlt s fun _ _ => exec .hlt s)

/-- R101. -/
def Obligations.LdiLoadsTheImmediate : Prop :=
  (∀ a imm s (h : a.toNat < 8), ∃ t, exec (.ldi a imm) s = .next t ∧ LdiEffect ⟨a.toNat, h⟩ imm s t) ∧
  (∀ a imm s, 8 ≤ a.toNat → Raises (exec (.ldi a imm) s) s .invalidRegister a.toNat) ∧
  (∀ (m : OpcodeMap), m.Distinct → ∀ s, s.canStep → StepsAs m .ldi s fun a imm => exec (.ldi a imm) s)

/-- R102.  `s.mem.wf` is part of the invariant of EveryStepKeepsTheInvariant. -/
def Obligations.StStoresTheRegister : Prop :=
  (∀ a b s (ha : a.toNat < 8) (hb : b.toNat < 8), s.mem.wf →
    ∃ t, exec (.st a b) s = .next t ∧ StEffect ⟨a.toNat, ha⟩ ⟨b.toNat, hb⟩ s t) ∧
  (∀ a b s, 8 ≤ a.toNat → Raises (exec (.st a b) s) s .invalidRegister a.toNat) ∧
  (∀ a b s, a.toNat < 8 → 8 ≤ b.toNat → Raises (exec (.st a b) s) s .invalidRegister b.toNat) ∧
  (∀ (m : OpcodeMap), m.Distinct → ∀ s, s.canStep → StepsAs m .st s fun a b => exec (.st a b) s)

/-- R103.  That PRN completes in every state is the spec's decision D17 (log entry 9): the host takes every value at
once, where R103 lets the step wait until the value has been taken. -/
def Obligations.PrnEmitsTheRegister : Prop :=
  (∀ a s (h : a.toNat < 8), ∃ t, exec (.prn a) s = .next t ∧ PrnEffect ⟨a.toNat, h⟩ s t) ∧
  (∀ a s, 8 ≤ a.toNat → Raises (exec (.prn a) s) s .invalidRegister a.toNat) ∧
  (∀ (m : OpcodeMap), m.Distinct → ∀ s, s.canStep → StepsAs m .prn s fun a _ => exec (.prn a) s)

/-- R110. -/
def Obligations.MulKeepsTheLowByteOfTheProduct : Prop :=
  (∀ a b s (ha : a.toNat < 8) (hb : b.toNat < 8), ∃ t, exec (.mul a b) s = .next t ∧
    ArithEffect ⟨a.toNat, ha⟩ ((s.reg ⟨a.toNat, ha⟩).toNat * (s.reg ⟨b.toNat, hb⟩).toNat) s t) ∧
  (∀ a b s, 8 ≤ a.toNat → Raises (exec (.mul a b) s) s .invalidRegister a.toNat) ∧
  (∀ a b s, a.toNat < 8 → 8 ≤ b.toNat → Raises (exec (.mul a b) s) s .invalidRegister b.toNat) ∧
  (∀ (m : OpcodeMap), m.Distinct → ∀ s, s.canStep → StepsAs m .mul s fun a b => exec (.mul a b) s)

/-- R111. -/
def Obligations.AddKeepsTheLowByteOfTheSum : Prop :=
  (∀ a b s (ha : a.toNat < 8) (hb : b.toNat < 8), ∃ t, exec (.add a b) s = .next t ∧
    ArithEffect ⟨a.toNat, ha⟩ ((s.reg ⟨a.toNat, ha⟩).toNat + (s.reg ⟨b.toNat, hb⟩).toNat) s t) ∧
  (∀ a b s, 8 ≤ a.toNat → Raises (exec (.add a b) s) s .invalidRegister a.toNat) ∧
  (∀ a b s, a.toNat < 8 → 8 ≤ b.toNat → Raises (exec (.add a b) s) s .invalidRegister b.toNat) ∧
  (∀ (m : OpcodeMap), m.Distinct → ∀ s, s.canStep → StepsAs m .add s fun a b => exec (.add a b) s)

/-- R120.  The form `a` = 7 and the wrap of the stack pointer rest on the spec's decisions D13 and D11 (log
entries 10 and 6).  `s.mem.wf` is part of the invariant of EveryStepKeepsTheInvariant. -/
def Obligations.PushStoresBelowTheStackPointer : Prop :=
  (∀ a s (h : a.toNat < 8), s.mem.wf →
    ∃ t, exec (.push a) s = .next t ∧ PushEffect ⟨a.toNat, h⟩ s t) ∧
  (∀ a s, 8 ≤ a.toNat → Raises (exec (.push a) s) s .invalidRegister a.toNat) ∧
  (∀ (m : OpcodeMap), m.Distinct → ∀ s, s.canStep → StepsAs m .push s fun a _ => exec (.push a) s)

/-- R121.  The form `a` = 7 and the wrap of the stack pointer rest on the spec's decisions D13 and D11 (log
entries 10 and 6). -/
def Obligations.PopLoadsTheTopOfStack : Prop :=
  (∀ a s (h : a.toNat < 8), ∃ t, exec (.pop a) s = .next t ∧ PopEffect ⟨a.toNat, h⟩ s t) ∧
  (∀ a s, 8 ≤ a.toNat → Raises (exec (.pop a) s) s .invalidRegister a.toNat) ∧
  (∀ (m : OpcodeMap), m.Distinct → ∀ s, s.canStep → StepsAs m .pop s fun a _ => exec (.pop a) s)

/-- R130, R133.  The fault of a return address above 255 is the spec's decision D12 (log entry 11); the form
`a` = 7 and the wrap rest on D13 and D11 (log entries 10 and 6); the operand byte used is the one fetched
before the write (D9, log entry 14).  `s.mem.wf` is part of the invariant of EveryStepKeepsTheInvariant. -/
def Obligations.CallPushesTheReturnAddress : Prop :=
  (∀ a s (h : a.toNat < 8), s.mem.wf → s.pc ≤ 253 →
    ∃ t, exec (.call a) s = .next t ∧ CallEffect ⟨a.toNat, h⟩ s t) ∧
  (∀ a s, a.toNat < 8 → 254 ≤ s.pc → Raises (exec (.call a) s) s .outOfBounds (s.pc + 2)) ∧
  (∀ a s, 8 ≤ a.toNat → Raises (exec (.call a) s) s .invalidRegister a.toNat) ∧
  (∀ (m : OpcodeMap), m.Distinct → ∀ s, s.canStep → StepsAs m .call s fun a _ => exec (.call a) s)

/-- R131.  The wrap of the stack pointer, at `x[7]` = 255, is the spec's decision D11 (log entry 6). -/
def Obligations.RetJumpsToTheTopOfStack : Prop :=
  (∀ s, ∃ t, exec .ret s = .next t ∧ RetEffect s t) ∧
  (∀ (m : OpcodeMap), m.Distinct → ∀ s, s.canStep → StepsAs m .ret s fun _ _ => exec .ret s)

/-! ## Arithmetic, memory, stack -/

/-- R113: the stored bits are those of the sum and product of the operands read as two's complement too. -/
def Obligations.SignedReadingGivesTheSameBits : Prop :=
  ∀ a b s (ha : a.toNat < 8) (hb : b.toNat < 8),
    (∃ t, exec (.add a b) s = .next t ∧
      (t.reg ⟨a.toNat, ha⟩).toInt = ((s.reg ⟨a.toNat, ha⟩).toInt + (s.reg ⟨b.toNat, hb⟩).toInt).bmod 256) ∧
    (∃ t, exec (.mul a b) s = .next t ∧
      (t.reg ⟨a.toNat, ha⟩).toInt = ((s.reg ⟨a.toNat, ha⟩).toInt * (s.reg ⟨b.toNat, hb⟩).toInt).bmod 256)

/-- R41: a read returns the byte at the address and fails with `OutOfBounds` outside [0, 256); a write stores the
byte under the same contract, and mutates nothing else.  `s.mem.wf` is part of the invariant of EveryStepKeepsTheInvariant. -/
def Obligations.MemoryAccessesKeepTheBoundsContract : Prop :=
  ∀ (s : State) (a : Nat) (v : Byte), s.mem.wf →
    (a < 256 → s.memRead a = .ok (s.mem.read a) ∧
      ∃ t, s.memWrite a v = .ok t ∧ StoredOnly a v s t ∧ t = { s with mem := t.mem }) ∧
    (256 ≤ a → s.memRead a = .error ⟨.outOfBounds, a⟩ ∧ s.memWrite a v = .error ⟨.outOfBounds, a⟩)

/-- The canonical form of memory says what it is for: two memories that read the same at every address of R40 are
equal data. -/
def Obligations.MemoriesThatReadTheSameAreEqual : Prop :=
  ∀ (m n : Memory), m.wf → n.wf → (∀ a, a < 256 → m.read a = n.read a) → m = n

/-- R122, for every register, 7 included (D13, log entry 10), and at both ends of the stack pointer's range (D11, log
entry 6): after PUSH a, in any later state whose stack pointer is the one PUSH
left and whose top of stack has not been overwritten, POP a restores `x[a]` and the stack pointer. -/
def Obligations.PushPopRestoresTheRegister : Prop :=
  ∀ (a : Byte) (s : State) (h : a.toNat < 8), s.mem.wf →
    ∃ t, exec (.push a) s = .next t ∧
      ∀ u : State, u.sp = t.sp → u.mem.read t.sp.toNat = t.mem.read t.sp.toNat →
        ∃ v, exec (.pop a) u = .next v ∧ v.reg ⟨a.toNat, h⟩ = s.reg ⟨a.toNat, h⟩ ∧ v.sp = s.sp

/-- The last sentence of R122, with the forms that name register 7 as R120 and R121 (D13, log entry 10) give them: PUSH b then
POP a copies `x[b]` to `x[a]` and leaves the stack pointer as it was; `b` = 7 copies the decremented stack
pointer; `a` = 7 leaves the copied byte plus one in the stack pointer.  The wrap of the stack pointer is D11 (log entry 6). -/
def Obligations.PushThenPopCopies : Prop :=
  ∀ (a b : Byte) (s : State) (ha : a.toNat < 8) (hb : b.toNat < 8), s.mem.wf →
    ∃ t, execAll [.push b, .pop a] s = .next t ∧
      (a.toNat ≠ 7 → t.sp = s.sp ∧
        (b.toNat ≠ 7 → t.reg ⟨a.toNat, ha⟩ = s.reg ⟨b.toNat, hb⟩) ∧
        (b.toNat = 7 → t.reg ⟨a.toNat, ha⟩ = s.sp - 1)) ∧
      (a.toNat = 7 → b.toNat ≠ 7 → t.sp = s.reg ⟨b.toNat, hb⟩ + 1) ∧
      (a.toNat = 7 → b.toNat = 7 → t.sp = s.sp)

/-- R132: after a CALL at an address up to 253, in any later state whose stack pointer is the one CALL left and
whose top of stack has not been overwritten, RET goes to the instruction after the CALL's two bytes and
restores the stack pointer.  The bound on the address is the spec's decision D12 (log entry 11), the wrap of the stack
pointer D11 (log entry 6). -/
def Obligations.RetReturnsAfterTheCall : Prop :=
  ∀ (a : Byte) (s : State), a.toNat < 8 → s.mem.wf → s.pc ≤ 253 →
    ∃ t, exec (.call a) s = .next t ∧
      ∀ u : State, u.sp = t.sp → u.mem.read t.sp.toNat = t.mem.read t.sp.toNat →
        ∃ v, exec .ret u = .next v ∧ v.pc = s.pc + 2 ∧ v.sp = s.sp

/-- R132's nesting of CALL and RET: after up to 256 nested CALLs, none of which faulted, as many RETs return to the
instruction after the first CALL and restore the stack pointer.  That the stack holds 256 return addresses, from any
`x[7]` on and past the wrap, is not R132's stack capacity: it rests on the spec's decision D11 (log entry 6). -/
def Obligations.NestedCallsReturnToTheFirst : Prop :=
  ∀ (as : List Byte) (s t : State), s.mem.wf → as ≠ [] → as.length ≤ 256 →
    (∀ a ∈ as, a.toNat < 8) → s.fault = none →
    execAll (as.map .call) s = .next t → t.fault = none →
    ∃ v, execAll (List.replicate as.length .ret) t = .next v ∧ v.pc = s.pc + 2 ∧ v.sp = s.sp

/-- R123 (the spec's decision D11, log entry 6): at `x[7]` = 0, PUSH and CALL wrap the stack pointer to 255 and
write `M[255]`; at `x[7]` = 255, POP and RET read `M[255]` and wrap it to 0 (a POP into register 7 itself
leaves the byte plus one, R121).  None of them raises.  What the explicit forms with register 7 store (PUSH) and leave
(POP) is the spec's decision D13 (log entry 10); the bound on CALL's address is D12 (log entry 11). -/
def Obligations.TheStackPointerWrapsAtBothEnds : Prop :=
  ∀ (a : Byte) (s : State) (h : a.toNat < 8), s.mem.wf → s.fault = none →
    (s.sp = 0 →
      (∃ t, exec (.push a) s = .next t ∧ t.sp = 255 ∧ t.fault = none ∧
        t.mem.read 255 = if a.toNat = 7 then 255 else s.reg ⟨a.toNat, h⟩) ∧
      (s.pc ≤ 253 → ∃ t, exec (.call a) s = .next t ∧ t.sp = 255 ∧ t.fault = none ∧
        (t.mem.read 255).toNat = s.pc + 2)) ∧
    (s.sp = 255 →
      (∃ t, exec (.pop a) s = .next t ∧ t.fault = none ∧
        (a.toNat ≠ 7 → t.reg ⟨a.toNat, h⟩ = s.mem.read 255 ∧ t.sp = 0) ∧
        (a.toNat = 7 → t.sp = s.mem.read 255 + 1)) ∧
      (∃ t, exec .ret s = .next t ∧ t.fault = none ∧ t.pc = (s.mem.read 255).toNat ∧ t.sp = 0))

/-- R53: a store is seen by the very next fetch: after an ST, PUSH or CALL, through any register, the bytes fetched
next begin with the byte stored, where the address stored to is the one fetched from; a CALL through register 7 is
always of that kind.  The forms of PUSH and CALL with register 7 are the spec's decision D13 (log entry 10), the wrap of
the stack pointer D11 (log entry 6), the bound on CALL's address D12 (log entry 11). -/
def Obligations.AStoreIsSeenByTheNextFetch : Prop :=
  (∀ (a b : Byte) (s : State) (ha : a.toNat < 8) (hb : b.toNat < 8), s.mem.wf →
    ∃ t, exec (.st a b) s = .next t ∧
      ((s.reg ⟨a.toNat, ha⟩).toNat = t.pc → (fetchBytes t).head? = some (s.reg ⟨b.toNat, hb⟩))) ∧
  (∀ (a : Byte) (s : State) (h : a.toNat < 8), s.mem.wf →
    ∃ t, exec (.push a) s = .next t ∧
      ((s.sp - 1).toNat = t.pc →
        (fetchBytes t).head? = some (if a.toNat = 7 then s.sp - 1 else s.reg ⟨a.toNat, h⟩))) ∧
  (∀ (a : Byte) (s : State), a.toNat < 8 → s.mem.wf → s.pc ≤ 253 →
    ∃ t, exec (.call a) s = .next t ∧ (a.toNat = 7 → (s.sp - 1).toNat = t.pc) ∧
      ((s.sp - 1).toNat = t.pc → (fetchBytes t).head? = some (BitVec.ofNat 8 (s.pc + 2))))

/-! ## Reset, load, run -/

/-- The reset values the source states (R38), for every value of `GPR_RESET` and `MEM_RESET`: register 7 is 0xF4 and
the run-state RUNNING; and the record of faults and the record of output are empty (R32, R35). -/
def Obligations.ResetLeavesTheStatedValues : Prop :=
  ∀ g w : Byte, (State.resetWith g w).sp = 0xF4 ∧ (State.resetWith g w).run = .running ∧
    (State.resetWith g w).fault = none ∧ (State.resetWith g w).out = []

/-- The reset values that are parameters (R9, R38): the program counter is 0 (the spec's decision D5, log entry 2),
registers 0 to 6 hold `GPR_RESET` and every byte of memory `MEM_RESET`.  So, with nothing loaded, the first step raises
`IllegalOpcode` of that byte where it is no opcode (R174). -/
def Obligations.ResetLeavesTheParameters : Prop :=
  ∀ g w : Byte, (State.resetWith g w).pc = 0 ∧ (∀ q : RegIdx, q ≠ 7 → (State.resetWith g w).reg q = g) ∧
    (∀ a, a < 256 → (State.resetWith g w).mem.read a = w) ∧
    ∀ m : OpcodeMap, (∀ o, m.byteOf o ≠ w) →
      Raises (stepWith m (State.resetWith g w)) (State.resetWith g w) .illegalOpcode w.toNat

/-- The reset values at the defaults, the spec's own decisions D5, D6 and D7 (log entries 2, 3 and 4): the program
counter, registers 0 to 6 and every byte of memory are 0; so, with nothing loaded, the first step raises
`IllegalOpcode(0)` (R174; D1, log entry 1). -/
def Obligations.ResetLeavesTheDefaultValues : Prop :=
  State.reset.pc = 0 ∧ (∀ q : RegIdx, q ≠ 7 → State.reset.reg q = 0) ∧
  (∀ a, State.reset.mem.read a = 0) ∧ Raises (step State.reset) State.reset .illegalOpcode 0

/-- R172: a sequence of up to 256 bytes is placed from address 0, every byte after it and every other item of
state keeps its value; a longer one is refused as a whole (the spec's decision D16, log entry 13).  That this is so on a
HALTED or faulted machine too is the model's own reading (log entry 21).
`s.mem.wf` is part of the invariant of EveryStepKeepsTheInvariant. -/
def Obligations.LoadPlacesTheBytes : Prop :=
  ∀ (bytes : List Byte) (s : State), s.mem.wf →
    (bytes.length ≤ 256 → ∃ t, load bytes s = .next t ∧
      (∀ i (h : i < bytes.length), t.mem.read i = bytes[i]) ∧
      (∀ i, bytes.length ≤ i → t.mem.read i = s.mem.read i) ∧ t = { s with mem := t.mem }) ∧
    (256 < bytes.length → load bytes s = .refused (.loadTooLong bytes.length))

/-- R173, R174: after `reset` and `load`, the first instruction executed is the one the loaded bytes begin
with, for every value of the parameters R9 leaves open.  That it is fetched from address 0 is the spec's decision D5 (log
entry 2). -/
def Obligations.TheLoadedProgramRunsFromItsFirstInstruction : Prop :=
  ∀ (p : OpenParams), p.opcodeMap.Distinct → ∀ (i : Instr) (rest : List Byte),
    (encodeWith p.opcodeMap i ++ rest).length ≤ 256 →
    ∃ t, load (encodeWith p.opcodeMap i ++ rest) (State.resetWith p.gprReset p.memReset) = .next t ∧
      stepWith p.opcodeMap t = exec i t

/-- R88, R91 (the spec's decision D18, log entry 17): the run loop repeats the step as long as one is enabled; a run
stopped at an instruction boundary leaves the state as it is there, and a later run continues from it. -/
def Obligations.AStoppedRunContinues : Prop :=
  ∀ (m : OpcodeMap),
    (∀ s, runWith m 0 s = s) ∧
    (∀ (n : Nat) (s t : State), stepWith m s = .next t → runWith m (n + 1) s = runWith m n t) ∧
    ∀ (k n : Nat) (s : State), runWith m n (runWith m k s) = runWith m (k + n) s

/-- R90, R149, R177 (the spec's decision D15, log entry 16): no host action but `reset` changes the run-state or fault record of
a HALTED or faulted machine, nor its registers, program counter or output; `run` changes nothing at all; and
after `reset` a machine can step, from the state of R38.  That `load` may write the memory of such a machine is the
model's own reading (log entry 21). -/
def Obligations.OnlyResetLeavesAStop : Prop :=
  (∀ (p : OpenParams) (s t : State) (act : HostAction), ¬ s.canStep → act ≠ .reset →
    actWith p s act = .next t →
    t.status = s.status ∧ t.pc = s.pc ∧ t.out = s.out ∧ (∀ q, t.reg q = s.reg q) ∧
    ∀ n, act = .run n → t = s) ∧
  (∀ (p : OpenParams) (s : State), ∃ t, actWith p s .reset = .next t ∧ t.canStep ∧
    t = State.resetWith p.gprReset p.memReset)

/-- R88, R89: a run whose machine can step no more ended with a step begun where it still could, and either that
step executed HLT and the run has succeeded, or it raised and the run has failed with nothing but the fault
record changed (the precision is the spec's decision D9, log entry 14).  Otherwise the host's `stop` ended it. -/
def Obligations.ARunEndsByHltOrByAFault : Prop :=
  ∀ (m : OpcodeMap), m.Distinct → ∀ (n : Nat) (s : State), s.canStep → ¬ (runWith m n s).canStep →
    ∃ k, k < n ∧ (runWith m k s).canStep ∧ stepWith m (runWith m k s) = .next (runWith m n s) ∧
      (((runWith m n s).succeeded ∧ (runWith m k s).mem.read (runWith m k s).pc = m.hlt) ∨
        ((runWith m n s).failed ∧ ∃ r, runWith m n s = { runWith m k s with fault := some r }))
end

