-- ==== Sys2Proof/Laws/Decode.lean ====
section
/-! SUPPORT. The opcode lookup, and what the operand decoder does, once. -/

namespace Sys2Proof

theorem Op.mem_all (o : Op) : o ∈ Op.all := by cases o <;> decide

theorem OpcodeMap.lookup_some {m : OpcodeMap} {b : Byte} {o : Op} (h : m.lookup b = some o) :
    m.byteOf o = b := by
  simpa using List.find?_some h

theorem OpcodeMap.lookup_none {m : OpcodeMap} {b : Byte} :
    m.lookup b = none ↔ ∀ o, m.byteOf o ≠ b := by
  simp [OpcodeMap.lookup, List.find?_eq_none, Op.mem_all]

/-- Distinct bytes name distinct operations. -/
theorem OpcodeMap.byteOf_injective {m : OpcodeMap} (h : m.Distinct) {o p : Op}
    (e : m.byteOf o = m.byteOf p) : o = p :=
  List.inj_on_of_nodup_map h (Op.mem_all o) (Op.mem_all p) e

theorem OpcodeMap.lookup_byteOf {m : OpcodeMap} (h : m.Distinct) (o : Op) :
    m.lookup (m.byteOf o) = some o := by
  rcases hl : m.lookup (m.byteOf o) with _ | p
  · exact absurd rfl (OpcodeMap.lookup_none.1 hl o)
  · rw [OpcodeMap.byteOf_injective h (OpcodeMap.lookup_some hl)]

/-- The instruction of an operation with the given operand bytes, of which it takes as many as it has. -/
def Op.instr : Op → Byte → Byte → Instr
  | .hlt, _, _ => .hlt
  | .ldi, a, b => .ldi a b
  | .st, a, b => .st a b
  | .prn, a, _ => .prn a
  | .mul, a, b => .mul a b
  | .add, a, b => .add a b
  | .push, a, _ => .push a
  | .pop, a, _ => .pop a
  | .call, a, _ => .call a
  | .ret, _, _ => .ret

@[simp] theorem Op.instr_op (o : Op) (a b : Byte) : (o.instr a b).op = o := by cases o <;> rfl

theorem decodeOperands_nil {o : Op} (h : 1 ≤ o.operandCount) :
    decodeOperands o [] = .error (.truncated 1) := by
  cases o <;> first | rfl | (exact absurd h (by decide))

theorem decodeOperands_one {o : Op} (h : o.operandCount = 2) (a : Byte) :
    decodeOperands o [a] = .error (.truncated 2) := by
  cases o <;> first | rfl | (exact absurd h (by decide))

theorem decodeOperands_all {o : Op} {bs : List Byte} {a b : Byte} (h : o.operandCount ≤ bs.length)
    (ha : ∀ h1 : 0 < bs.length, bs[0] = a) (hb : ∀ h2 : 1 < bs.length, bs[1] = b) :
    decodeOperands o bs = .ok (o.instr a b, bs.drop o.operandCount) := by
  rcases bs with _ | ⟨x, _ | ⟨y, bs⟩⟩
  · cases o <;> first | rfl | (exact absurd h (by decide))
  · obtain rfl : x = a := ha (by simp)
    cases o <;> first | rfl | (exact absurd h (by simp [Op.operandCount]))
  · obtain rfl : x = a := ha (by simp)
    obtain rfl : y = b := hb (by simp)
    cases o <;> rfl

/-- What the decoder does with a known opcode byte. -/
theorem decodeWith_lookup {m : OpcodeMap} {b : Byte} {o : Op} (h : m.lookup b = some o) (rest : List Byte) :
    decodeWith m (b :: rest) = decodeOperands o rest := by
  simp [decodeWith, h]

theorem decodeWith_illegal {m : OpcodeMap} {b : Byte} (h : m.lookup b = none) (rest : List Byte) :
    decodeWith m (b :: rest) = .error (.illegalOpcode b) := by
  simp [decodeWith, h]

end Sys2Proof
end

