-- ==== Sys2Proof/Laws/Memory.lean ====
section
/-! SUPPORT. What the memory operations do: reads after writes, and that every write keeps the canonical
form. -/

namespace Sys2Proof.Machine

/-! ## Reading -/

@[simp] theorem Memory.read_nil (a : Nat) : Memory.read [] a = Config.memReset := rfl

theorem Memory.read_cons_same (a : Nat) (v : Byte) (m : Memory) : Memory.read ((a, v) :: m) a = v := by
  simp [Memory.read]

theorem Memory.read_cons_ne {k a : Nat} (h : k ≠ a) (v : Byte) (m : Memory) :
    Memory.read ((k, v) :: m) a = Memory.read m a := by
  simp [Memory.read, h]

/-- An address below every listed one reads as the reset contents. -/
theorem Memory.read_below {m : Memory} {a : Nat} (h : ∀ c ∈ m, a < c.1) : m.read a = Config.memReset := by
  induction m with
  | nil => rfl
  | cons c m ih =>
    have hc : c.1 ≠ a := Nat.ne_of_gt (h c (by simp))
    rw [show c = (c.1, c.2) from rfl, Memory.read_cons_ne hc, ih fun d hd => h d (by simp [hd])]

/-! ## The canonical form -/

theorem Memory.wf_nil : Memory.wf [] := by simp [Memory.wf]

theorem Memory.wf_cons {c : Host.Cell} {m : Memory} :
    Memory.wf (c :: m) ↔
      (∀ d ∈ m, c.1 < d.1) ∧ c.1 < Config.memSize ∧ c.2 ≠ Config.memReset ∧ Memory.wf m := by
  simp only [Memory.wf, List.pairwise_cons, List.forall_mem_cons]
  tauto

/-- A memory in canonical form reads as the reset contents outside the address space. -/
theorem Memory.read_outside {m : Memory} (h : m.wf) {a : Nat} (ha : Config.memSize ≤ a) :
    m.read a = Config.memReset := by
  induction m with
  | nil => rfl
  | cons c m ih =>
    obtain ⟨-, hc, -, hm⟩ := Memory.wf_cons.1 h
    rw [show c = (c.1, c.2) from rfl, Memory.read_cons_ne (by omega), ih hm]

/-! ## The memory after reset -/

theorem Memory.read_map_const (v : Byte) {l : List Nat} {a : Nat} (h : a ∈ l) :
    Memory.read (l.map fun k => (k, v)) a = v := by
  induction l with
  | nil => cases h
  | cons k l ih =>
    by_cases hk : k = a
    · subst hk; exact Memory.read_cons_same ..
    · rw [List.map_cons, Memory.read_cons_ne hk, ih (by simpa [Ne.symm hk] using h)]

/-- A filled memory reads as that byte at every address. -/
theorem Memory.read_filled (v : Byte) {a : Nat} (h : a < Config.memSize) : (Memory.filled v).read a = v := by
  unfold Memory.filled
  split
  · next hv => exact hv.symm
  · exact Memory.read_map_const v (List.mem_range.2 h)

theorem Memory.filled_wf (v : Byte) : (Memory.filled v).wf := by
  unfold Memory.filled
  split
  · exact Memory.wf_nil
  · next hv =>
    refine ⟨List.pairwise_map.2 List.pairwise_lt_range, fun c hc => ?_⟩
    obtain ⟨a, ha, rfl⟩ := List.mem_map.1 hc
    exact ⟨List.mem_range.1 ha, hv⟩

/-! ## Writing one byte -/

theorem Memory.read_cons (a b : Nat) (v : Byte) {m : Memory} (h : ∀ c ∈ m, a < c.1) :
    (Memory.cons a v m).read b = if b = a then v else m.read b := by
  unfold Memory.cons
  by_cases hv : v = Config.memReset <;> by_cases hb : b = a
  · subst hb; simp [hv, Memory.read_below h]
  · simp [hv, hb]
  · subst hb; simp [hv, Memory.read_cons_same]
  · simp [hv, hb, Memory.read_cons_ne (Ne.symm hb)]

/-- Read after write: the byte written at its address, every other address as before. -/
theorem Memory.read_write {m : Memory} (h : m.wf) (a b : Nat) (v : Byte) :
    (m.write a v).read b = if b = a then v else m.read b := by
  induction m with
  | nil => exact Memory.read_cons a b v (by simp)
  | cons c m ih =>
    obtain ⟨k, w⟩ := c
    obtain ⟨hlt, -, -, hm⟩ := Memory.wf_cons.1 h
    unfold Memory.write
    split
    · next hak =>
      exact Memory.read_cons a b v (by simpa using ⟨hak, fun x y hd => hak.trans (hlt _ hd)⟩)
    split
    · next hak =>
      subst hak
      rw [Memory.read_cons a b v hlt]
      by_cases hb : b = a
      · simp [hb]
      · simp [hb, Memory.read_cons_ne (Ne.symm hb)]
    · next hak hne =>
      by_cases hb : b = k
      · subst hb; simp [Memory.read_cons_same, Ne.symm hne]
      · rw [Memory.read_cons_ne (Ne.symm hb), Memory.read_cons_ne (Ne.symm hb), ih hm]

theorem Memory.read_write_same {m : Memory} (h : m.wf) (a : Nat) (v : Byte) : (m.write a v).read a = v := by
  simp [Memory.read_write h]

theorem Memory.read_write_ne {m : Memory} (h : m.wf) {a b : Nat} (hb : b ≠ a) (v : Byte) :
    (m.write a v).read b = m.read b := by
  simp [Memory.read_write h, hb]

theorem Memory.mem_cons {a : Nat} {v : Byte} {m : Memory} {c : Host.Cell} (h : c ∈ Memory.cons a v m) :
    c = (a, v) ∨ c ∈ m := by
  unfold Memory.cons at h
  split at h
  · exact .inr h
  · simpa using h

theorem Memory.mem_write {m : Memory} {a : Nat} {v : Byte} {c : Host.Cell} (h : c ∈ m.write a v) :
    c = (a, v) ∨ c ∈ m := by
  induction m with
  | nil => simpa using Memory.mem_cons h
  | cons d m ih =>
    obtain ⟨k, w⟩ := d
    unfold Memory.write at h
    split at h
    · simpa using Memory.mem_cons h
    split at h
    · rcases Memory.mem_cons h with h | h <;> simp [h]
    · rcases List.mem_cons.1 h with h | h
      · simp [h]
      · rcases ih h with h | h <;> simp [h]

theorem Memory.cons_wf {a : Nat} {v : Byte} {m : Memory} (ha : a < Config.memSize)
    (h : ∀ c ∈ m, a < c.1) (hm : m.wf) : (Memory.cons a v m).wf := by
  unfold Memory.cons
  split
  · exact hm
  · next hv => exact Memory.wf_cons.2 ⟨h, ha, hv, hm⟩

/-- A write inside the memory keeps the canonical form. -/
theorem Memory.write_wf {m : Memory} (h : m.wf) {a : Nat} (ha : a < Config.memSize) (v : Byte) :
    (m.write a v).wf := by
  induction m with
  | nil => exact Memory.cons_wf ha (by simp) h
  | cons c m ih =>
    obtain ⟨k, w⟩ := c
    obtain ⟨hlt, hk, hw, hm⟩ := Memory.wf_cons.1 h
    unfold Memory.write
    split
    · next hak => exact Memory.cons_wf ha (by simpa using ⟨hak, fun x y hd => hak.trans (hlt _ hd)⟩) h
    split
    · next hak => subst hak; exact Memory.cons_wf ha hlt hm
    · next hak hne =>
      refine Memory.wf_cons.2 ⟨fun d hd => ?_, hk, hw, ih hm⟩
      rcases Memory.mem_write hd with rfl | hd
      · simp only; omega
      · exact hlt d hd

/-! ## Writing several bytes -/

theorem Memory.writeBytes_wf {m : Memory} (h : m.wf) (a : Nat) (bs : List Byte) :
    (m.writeBytes a bs).wf := by
  induction bs generalizing m a with
  | nil => exact h
  | cons b bs ih =>
    unfold Memory.writeBytes
    refine ih ?_ _
    split
    · next ha => exact Memory.write_wf h ha b
    · exact h

/-- Addresses below the first one written keep their bytes. -/
theorem Memory.read_writeBytes_below {m : Memory} (h : m.wf) {a c : Nat} (hc : c < a) (bs : List Byte) :
    (m.writeBytes a bs).read c = m.read c := by
  induction bs generalizing m a with
  | nil => rfl
  | cons b bs ih =>
    unfold Memory.writeBytes
    split
    · next ha => rw [ih (Memory.write_wf h ha b) (by omega), Memory.read_write_ne h (by omega)]
    · rw [ih h (by omega)]

/-- What each address reads as after bytes were written at ascending addresses inside the memory. -/
theorem Memory.read_writeBytes {m : Memory} (h : m.wf) {a : Nat} {bs : List Byte}
    (hin : a + bs.length ≤ Config.memSize) (c : Nat) :
    (m.writeBytes a bs).read c =
      if hc : a ≤ c ∧ c - a < bs.length then bs[c - a]'hc.2 else m.read c := by
  induction bs generalizing m a with
  | nil => simp [Memory.writeBytes]
  | cons b bs ih =>
    simp only [List.length_cons] at hin
    have ha : a < Config.memSize := by simp only [Config.memSize] at hin ⊢; omega
    unfold Memory.writeBytes
    rw [if_pos ha]
    by_cases hca : c = a
    · subst hca
      rw [Memory.read_writeBytes_below (Memory.write_wf h ha b) (by omega), Memory.read_write_same h]
      simp
    · rw [ih (Memory.write_wf h ha b) (by simp only [Config.memSize] at hin ⊢; omega),
        Memory.read_write_ne h hca]
      by_cases hc : a + 1 ≤ c ∧ c - (a + 1) < bs.length
      · have h2 : a ≤ c ∧ c - a < (b :: bs).length := by simp only [List.length_cons]; omega
        rw [dif_pos hc, dif_pos h2]
        simp only [show c - a = (c - (a + 1)) + 1 from by omega, List.getElem_cons_succ]
      · rw [dif_neg hc, dif_neg (by simp only [List.length_cons]; omega)]

/-! ## The fetch window -/

theorem Memory.window_outside (m : Memory) {n a : Nat} (h : 256 ≤ a) : m.window n a = [] := by
  cases n with
  | zero => rfl
  | succ n => simp [Memory.window, Nat.not_lt.2 h]

theorem Memory.window_succ (m : Memory) {n a : Nat} (h : a < 256) :
    m.window (n + 1) a = m.read a :: m.window n (a + 1) := by
  simp [Memory.window, h]

theorem Memory.window_three (m : Memory) {a : Nat} (h : a + 2 < 256) :
    m.window 3 a = [m.read a, m.read (a + 1), m.read (a + 2)] := by
  rw [Memory.window_succ m (by omega), Memory.window_succ m (by omega), Memory.window_succ m (by omega)]
  rfl

theorem Memory.window_two (m : Memory) {a : Nat} (h : a = 254) :
    m.window 3 a = [m.read a, m.read (a + 1)] := by
  rw [Memory.window_succ m (by omega), Memory.window_succ m (by omega),
    Memory.window_outside m (by omega)]

theorem Memory.window_one (m : Memory) {a : Nat} (h : a = 255) : m.window 3 a = [m.read a] := by
  rw [Memory.window_succ m (by omega), Memory.window_outside m (by omega)]

end Sys2Proof.Machine
end

