-- ==== Sys2Proof/Laws/State.lean ====
section
/-! SUPPORT. One lemma per field of State and update of State, so that no proof unfolds a record update. -/

namespace Sys2Proof.Machine

variable (s : State) (r : RegIdx) (v : Byte) (a n : Nat) (f : FaultRecord)

/-! ## Writing a register -/

@[simp] theorem State.setReg_reg_same : (s.setReg r v).reg r = v := by simp [State.setReg, State.reg]
theorem State.setReg_reg (q : RegIdx) : (s.setReg r v).reg q = if q = r then v else s.reg q := by
  by_cases h : q = r
  · simp [h]
  · have : (r : Nat) ≠ q := fun e => h (Fin.ext e.symm)
    simp [State.setReg, State.reg, h, this]
@[simp] theorem State.setReg_reg_ne {q : RegIdx} (h : q ≠ r) : (s.setReg r v).reg q = s.reg q := by
  rw [State.setReg_reg, if_neg h]
@[simp] theorem State.setReg_pc : (s.setReg r v).pc = s.pc := rfl
@[simp] theorem State.setReg_mem : (s.setReg r v).mem = s.mem := rfl
@[simp] theorem State.setReg_run : (s.setReg r v).run = s.run := rfl
@[simp] theorem State.setReg_fault : (s.setReg r v).fault = s.fault := rfl
@[simp] theorem State.setReg_out : (s.setReg r v).out = s.out := rfl

/-! ## The stack pointer -/

@[simp] theorem State.setReg_sp_same : (s.setReg 7 v).sp = v := State.setReg_reg_same s 7 v
@[simp] theorem State.setReg_sp_ne (h : r ≠ 7) : (s.setReg r v).sp = s.sp :=
  State.setReg_reg_ne s r v (Ne.symm h)
theorem State.sp_eq : s.sp = s.reg 7 := rfl
@[simp] theorem State.decSp_sp : s.decSp.sp = decWrap s.sp := State.setReg_reg_same s 7 _
theorem State.decSp_reg : s.decSp.reg r = if r = 7 then decWrap s.sp else s.reg r := State.setReg_reg s 7 _ r
@[simp] theorem State.decSp_pc : s.decSp.pc = s.pc := rfl
@[simp] theorem State.decSp_mem : s.decSp.mem = s.mem := rfl
@[simp] theorem State.decSp_run : s.decSp.run = s.run := rfl
@[simp] theorem State.decSp_fault : s.decSp.fault = s.fault := rfl
@[simp] theorem State.decSp_out : s.decSp.out = s.out := rfl
@[simp] theorem State.incSp_sp : s.incSp.sp = incWrap s.sp := State.setReg_reg_same s 7 _
theorem State.incSp_reg : s.incSp.reg r = if r = 7 then incWrap s.sp else s.reg r := State.setReg_reg s 7 _ r
@[simp] theorem State.incSp_pc : s.incSp.pc = s.pc := rfl
@[simp] theorem State.incSp_mem : s.incSp.mem = s.mem := rfl
@[simp] theorem State.incSp_run : s.incSp.run = s.run := rfl
@[simp] theorem State.incSp_fault : s.incSp.fault = s.fault := rfl
@[simp] theorem State.incSp_out : s.incSp.out = s.out := rfl

/-! ## The program counter -/

@[simp] theorem State.setPc_pc : (s.setPc n).pc = n := rfl
@[simp] theorem State.setPc_reg : (s.setPc n).reg r = s.reg r := rfl
@[simp] theorem State.setPc_sp : (s.setPc n).sp = s.sp := rfl
@[simp] theorem State.setPc_mem : (s.setPc n).mem = s.mem := rfl
@[simp] theorem State.setPc_run : (s.setPc n).run = s.run := rfl
@[simp] theorem State.setPc_fault : (s.setPc n).fault = s.fault := rfl
@[simp] theorem State.setPc_out : (s.setPc n).out = s.out := rfl
@[simp] theorem State.advance_pc : (s.advance n).pc = s.pc + n := rfl
@[simp] theorem State.advance_reg : (s.advance n).reg r = s.reg r := rfl
@[simp] theorem State.advance_sp : (s.advance n).sp = s.sp := rfl
@[simp] theorem State.advance_mem : (s.advance n).mem = s.mem := rfl
@[simp] theorem State.advance_run : (s.advance n).run = s.run := rfl
@[simp] theorem State.advance_fault : (s.advance n).fault = s.fault := rfl
@[simp] theorem State.advance_out : (s.advance n).out = s.out := rfl

/-! ## Memory, output, run-state -/

@[simp] theorem State.setByte_mem : (s.setByte a v).mem = s.mem.write a v := rfl
@[simp] theorem State.setByte_reg : (s.setByte a v).reg r = s.reg r := rfl
@[simp] theorem State.setByte_sp : (s.setByte a v).sp = s.sp := rfl
@[simp] theorem State.setByte_pc : (s.setByte a v).pc = s.pc := rfl
@[simp] theorem State.setByte_run : (s.setByte a v).run = s.run := rfl
@[simp] theorem State.setByte_fault : (s.setByte a v).fault = s.fault := rfl
@[simp] theorem State.setByte_out : (s.setByte a v).out = s.out := rfl
@[simp] theorem State.emit_out : (s.emit v).out = s.out ++ [v] := rfl
@[simp] theorem State.emit_reg : (s.emit v).reg r = s.reg r := rfl
@[simp] theorem State.emit_sp : (s.emit v).sp = s.sp := rfl
@[simp] theorem State.emit_pc : (s.emit v).pc = s.pc := rfl
@[simp] theorem State.emit_mem : (s.emit v).mem = s.mem := rfl
@[simp] theorem State.emit_run : (s.emit v).run = s.run := rfl
@[simp] theorem State.emit_fault : (s.emit v).fault = s.fault := rfl
@[simp] theorem State.halt_run : s.halt.run = .halted := rfl
@[simp] theorem State.halt_reg : s.halt.reg r = s.reg r := rfl
@[simp] theorem State.halt_sp : s.halt.sp = s.sp := rfl
@[simp] theorem State.halt_pc : s.halt.pc = s.pc := rfl
@[simp] theorem State.halt_mem : s.halt.mem = s.mem := rfl
@[simp] theorem State.halt_fault : s.halt.fault = s.fault := rfl
@[simp] theorem State.halt_out : s.halt.out = s.out := rfl

/-! ## Taking a fault -/

@[simp] theorem raise_fault : (raise f s).fault = some f := rfl
@[simp] theorem raise_reg : (raise f s).reg r = s.reg r := rfl
@[simp] theorem raise_sp : (raise f s).sp = s.sp := rfl
@[simp] theorem raise_pc : (raise f s).pc = s.pc := rfl
@[simp] theorem raise_mem : (raise f s).mem = s.mem := rfl
@[simp] theorem raise_run : (raise f s).run = s.run := rfl
@[simp] theorem raise_out : (raise f s).out = s.out := rfl

/-! ## Reset -/

variable (g w : Byte)

theorem State.resetWith_reg : (State.resetWith g w).reg r = if r = 7 then Config.spReset else g := by
  by_cases h : r = 7
  · simp [State.resetWith, State.reg, h]
  · have : (7 : Nat) ≠ r := fun e => h (Fin.ext e.symm)
    simp [State.resetWith, State.reg, h, this]
@[simp] theorem State.resetWith_sp : (State.resetWith g w).sp = Config.spReset := State.resetWith_reg 7 g w
@[simp] theorem State.resetWith_pc : (State.resetWith g w).pc = Config.pcReset := rfl
@[simp] theorem State.resetWith_mem : (State.resetWith g w).mem = Memory.filled w := rfl
@[simp] theorem State.resetWith_run : (State.resetWith g w).run = .running := rfl
@[simp] theorem State.resetWith_fault : (State.resetWith g w).fault = none := rfl
@[simp] theorem State.resetWith_out : (State.resetWith g w).out = [] := rfl

/-- Two states with the same registers, read one by one, and the same other fields are equal. -/
theorem State.ext_reg {s t : State} (hr : ∀ q, s.reg q = t.reg q) (hpc : s.pc = t.pc) (hm : s.mem = t.mem)
    (hrun : s.run = t.run) (hf : s.fault = t.fault) (ho : s.out = t.out) : s = t := by
  obtain ⟨rs, _, _, _, _, _⟩ := s
  obtain ⟨rt, _, _, _, _, _⟩ := t
  have : rs = rt := Vector.ext fun i hi => hr ⟨i, hi⟩
  simp_all

end Sys2Proof.Machine
end

