-- ==== Sys2Proof/Laws/Ops.lean ====
section
/-! SUPPORT. One lemma per shared operation: the arithmetic, the checked accesses, the register operand, and
how a step concludes. -/

namespace Sys2Proof.Machine

/-! ## Arithmetic -/

/-- The bound of a byte, as a numeral that `omega` can use. -/
theorem byte_toNat_lt (b : Byte) : b.toNat < 256 := b.isLt

@[simp] theorem addWrap_toNat (p q : Byte) : (addWrap p q).toNat = (p.toNat + q.toNat) % 256 := by
  simp [addWrap, wrap8]

@[simp] theorem mulWrap_toNat (p q : Byte) : (mulWrap p q).toNat = (p.toNat * q.toNat) % 256 := by
  simp [mulWrap, wrap8]

theorem decWrap_eq (v : Byte) : decWrap v = v - 1 := by
  apply BitVec.eq_of_toNat_eq
  simp [decWrap, wrap8, BitVec.toNat_sub]
  omega

theorem incWrap_eq (v : Byte) : incWrap v = v + 1 := by
  apply BitVec.eq_of_toNat_eq
  simp [incWrap, wrap8, BitVec.toNat_add]

theorem incWrap_decWrap (v : Byte) : incWrap (decWrap v) = v := by
  rw [decWrap_eq, incWrap_eq]; ring

theorem wrap8_toNat {n : Nat} (h : n < 256) : (wrap8 n).toNat = n := by
  simp only [wrap8, BitVec.toNat_ofNat, Config.byteBits]; omega

/-! ## Checked accesses -/

theorem State.memRead_in (s : State) {a : Nat} (h : a < 256) : s.memRead a = .ok (s.mem.read a) := by
  simp [State.memRead, h]

theorem State.memRead_out (s : State) {a : Nat} (h : 256 ≤ a) :
    s.memRead a = .error ⟨.outOfBounds, a⟩ := by
  simp [State.memRead, Nat.not_lt.2 h]

theorem State.memWrite_in (s : State) {a : Nat} (h : a < 256) (v : Byte) :
    s.memWrite a v = .ok (s.setByte a v) := by
  simp [State.memWrite, h]

theorem State.memWrite_out (s : State) {a : Nat} (h : 256 ≤ a) (v : Byte) :
    s.memWrite a v = .error ⟨.outOfBounds, a⟩ := by
  simp [State.memWrite, Nat.not_lt.2 h]

/-- A register-formed address is always in bounds (R42). -/
theorem State.memRead_byte (s : State) (b : Byte) : s.memRead b.toNat = .ok (s.mem.read b.toNat) :=
  s.memRead_in b.isLt

theorem State.memWrite_byte (s : State) (b v : Byte) : s.memWrite b.toNat v = .ok (s.setByte b.toNat v) :=
  s.memWrite_in b.isLt v

/-! ## Register operands -/

theorem regIndex_ok {b : Byte} (h : b.toNat < 8) : regIndex b = .ok ⟨b.toNat, h⟩ := by
  simp [regIndex, h]

theorem regIndex_bad {b : Byte} (h : ¬ b.toNat < 8) : regIndex b = .error ⟨.invalidRegister, b.toNat⟩ := by
  simp [regIndex, h]

/-! ## How a step concludes -/

@[simp] theorem conclude_ok (s t : State) : conclude s (.ok t) = .next t := rfl
@[simp] theorem conclude_error (s : State) (r : FaultRecord) : conclude s (.error r) = .next (raise r s) := rfl

/-- A register operand is good, or the meaning ends by raising `InvalidRegister` in the state it began in. -/
theorem conclude_regIndex (s : State) (b : Byte) (k : RegIdx → Except FaultRecord State) :
    conclude s (regIndex b >>= k) =
      if h : b.toNat < 8 then conclude s (k ⟨b.toNat, h⟩)
      else .next (raise ⟨.invalidRegister, b.toNat⟩ s) := by
  by_cases h : b.toNat < 8
  · rw [regIndex_ok h, dif_pos h]; rfl
  · rw [regIndex_bad h, dif_neg h]; rfl

theorem stopped_none {s : State} : stopped s = none ↔ s.run = .running ∧ s.fault = none := by
  unfold stopped
  rcases s.fault with _ | r <;> rcases s.run <;> simp

theorem stopped_of_fault {s : State} {r : FaultRecord} (h : s.fault = some r) :
    stopped s = some (.faulted r) := by
  simp [stopped, h]

theorem stopped_of_halted {s : State} (h : s.fault = none) (hr : s.run = .halted) :
    stopped s = some .halted := by
  simp [stopped, h, hr]

end Sys2Proof.Machine
end

