-- ==== Sys2Proof/Laws/Exec.lean ====
section
/-! SUPPORT. What each meaning answers, once: with its register operands in range the one next state, else
the fault raised in the state it began in.  Later proofs cite these and unfold no meaning. -/

namespace Sys2Proof.Machine

theorem execHlt_eq (s : State) : execHlt s = .next (s.halt.advance Config.hltPcAdvance) := rfl

theorem execLdi_eq (a imm : Byte) (s : State) :
    execLdi a imm s =
      if h : a.toNat < 8 then .next ((s.setReg ⟨a.toNat, h⟩ imm).advance 3)
      else .next (raise ⟨.invalidRegister, a.toNat⟩ s) :=
  conclude_regIndex s a _

theorem execSt_eq (a b : Byte) (s : State) :
    execSt a b s =
      if ha : a.toNat < 8 then
        if hb : b.toNat < 8 then
          .next ((s.setByte (s.reg ⟨a.toNat, ha⟩).toNat (s.reg ⟨b.toNat, hb⟩)).advance 3)
        else .next (raise ⟨.invalidRegister, b.toNat⟩ s)
      else .next (raise ⟨.invalidRegister, a.toNat⟩ s) := by
  simp only [execSt, conclude_regIndex, State.memWrite_byte]
  rfl

theorem execPrn_eq (a : Byte) (s : State) :
    execPrn a s =
      if h : a.toNat < 8 then .next ((s.emit (s.reg ⟨a.toNat, h⟩)).advance 2)
      else .next (raise ⟨.invalidRegister, a.toNat⟩ s) :=
  conclude_regIndex s a _

theorem execArith_eq (f : Byte → Byte → Byte) (a b : Byte) (s : State) :
    execArith f a b s =
      if ha : a.toNat < 8 then
        if hb : b.toNat < 8 then
          .next ((s.setReg ⟨a.toNat, ha⟩ (f (s.reg ⟨a.toNat, ha⟩) (s.reg ⟨b.toNat, hb⟩))).advance 3)
        else .next (raise ⟨.invalidRegister, b.toNat⟩ s)
      else .next (raise ⟨.invalidRegister, a.toNat⟩ s) := by
  simp only [execArith, conclude_regIndex]
  rfl

theorem execMul_eq (a b : Byte) (s : State) : execMul a b s = execArith mulWrap a b s := rfl

theorem execAdd_eq (a b : Byte) (s : State) : execAdd a b s = execArith addWrap a b s := rfl

theorem execPush_eq (a : Byte) (s : State) :
    execPush a s =
      if h : a.toNat < 8 then
        .next ((s.decSp.setByte (decWrap s.sp).toNat (s.decSp.reg ⟨a.toNat, h⟩)).advance 2)
      else .next (raise ⟨.invalidRegister, a.toNat⟩ s) := by
  simp only [execPush, conclude_regIndex, State.memWrite_byte, State.decSp_sp]
  rfl

theorem execPop_eq (a : Byte) (s : State) :
    execPop a s =
      if h : a.toNat < 8 then
        .next ((s.setReg ⟨a.toNat, h⟩ (s.mem.read s.sp.toNat)).incSp.advance 2)
      else .next (raise ⟨.invalidRegister, a.toNat⟩ s) := by
  simp only [execPop, conclude_regIndex, State.memRead_byte]
  rfl

theorem execCall_eq (a : Byte) (s : State) :
    execCall a s =
      if h : a.toNat < 8 then
        if s.pc + 2 ≤ 255 then
          .next ((s.decSp.setByte (decWrap s.sp).toNat (wrap8 (s.pc + 2))).setPc
            (s.decSp.reg ⟨a.toNat, h⟩).toNat)
        else .next (raise ⟨.outOfBounds, s.pc + 2⟩ s)
      else .next (raise ⟨.invalidRegister, a.toNat⟩ s) := by
  simp only [execCall, conclude_regIndex, State.memWrite_byte, State.decSp_sp, returnAddress]
  by_cases hp : s.pc + 2 ≤ 255
  · simp only [hp, Nat.not_lt.2 hp, if_true, if_false]; rfl
  · simp only [hp, Nat.lt_of_not_le hp, if_true, if_false]; rfl

theorem execRet_eq (s : State) :
    execRet s = .next ((s.setPc (s.mem.read s.sp.toNat).toNat).incSp) := by
  simp only [execRet, State.memRead_byte]
  rfl

/-! ## Every meaning at once -/

/-- No meaning stops: each answers a next state, with its effect or with a fault taken. -/
theorem exec_next (i : Instr) (s : State) : ∃ t, exec i s = .next t := by
  cases i <;>
    simp only [exec, execHlt_eq, execLdi_eq, execSt_eq, execPrn_eq, execMul_eq, execAdd_eq, execArith_eq,
      execPush_eq, execPop_eq, execCall_eq, execRet_eq] <;>
    (repeat' split) <;> exact ⟨_, rfl⟩

/-- The faults a meaning can take, and what it leaves of the fault record where it takes none. -/
theorem exec_cases {i : Instr} {s t : State} (h : exec i s = .next t) :
    (∃ b ∈ i.registerOperands, 8 ≤ b.toNat ∧ t = raise ⟨.invalidRegister, b.toNat⟩ s) ∨
    (∃ a, i = .call a ∧ a.toNat < 8 ∧ 254 ≤ s.pc ∧ t = raise ⟨.outOfBounds, s.pc + 2⟩ s) ∨
    ((∀ b ∈ i.registerOperands, b.toNat < 8) ∧ t.fault = s.fault) := by
  cases i <;>
    simp only [exec, execHlt_eq, execLdi_eq, execSt_eq, execPrn_eq, execMul_eq, execAdd_eq, execArith_eq,
      execPush_eq, execPop_eq, execCall_eq, execRet_eq] at h <;>
    (repeat' split at h) <;> cases h <;> (simp_all [Instr.registerOperands]; try omega)

/-- Every meaning keeps the canonical form of memory. -/
theorem exec_wf {i : Instr} {s t : State} (hw : s.mem.wf) (h : exec i s = .next t) : t.mem.wf := by
  cases i <;>
    simp only [exec, execHlt_eq, execLdi_eq, execSt_eq, execPrn_eq, execMul_eq, execAdd_eq, execArith_eq,
      execPush_eq, execPop_eq, execCall_eq, execRet_eq] at h <;>
    (repeat' split at h) <;> cases h <;> first | exact hw | exact Memory.write_wf hw (BitVec.isLt _) _

end Sys2Proof.Machine
end

