-- ==== Sys2Proof/Laws/PerInstr.lean ====
section
/-! SUPPORT. Families of statements proved per instruction (LAWS.json).

`EncodingShape`: the encoding of an instruction is the opcode byte of its operation followed by its operand
bytes, as many as the opcode table gives it (R60, R62, R66); the register operands are those WellFormed
checks (R61). -/

namespace Sys2Proof.Laws.EncodingShape

/-- The shape of an instruction's encoding under every opcode map, and of its well-formedness. -/
def Statement (i : Instr) : Prop :=
  (∀ m : OpcodeMap, encodeWith m i = m.byteOf i.op :: i.operands) ∧
  i.operands.length = i.op.operandCount ∧ i.wf = i.registerOperands.all regOk

theorem hlt : Statement .hlt := ⟨fun _ => rfl, rfl, rfl⟩
theorem ldi (a imm : Byte) : Statement (.ldi a imm) := ⟨fun _ => rfl, rfl, by simp [Instr.wf, Instr.registerOperands]⟩
theorem st (a b : Byte) : Statement (.st a b) := ⟨fun _ => rfl, rfl, by simp [Instr.wf, Instr.registerOperands]⟩
theorem prn (a : Byte) : Statement (.prn a) := ⟨fun _ => rfl, rfl, by simp [Instr.wf, Instr.registerOperands]⟩
theorem mul (a b : Byte) : Statement (.mul a b) := ⟨fun _ => rfl, rfl, by simp [Instr.wf, Instr.registerOperands]⟩
theorem add (a b : Byte) : Statement (.add a b) := ⟨fun _ => rfl, rfl, by simp [Instr.wf, Instr.registerOperands]⟩
theorem push (a : Byte) : Statement (.push a) := ⟨fun _ => rfl, rfl, by simp [Instr.wf, Instr.registerOperands]⟩
theorem pop (a : Byte) : Statement (.pop a) := ⟨fun _ => rfl, rfl, by simp [Instr.wf, Instr.registerOperands]⟩
theorem call (a : Byte) : Statement (.call a) := ⟨fun _ => rfl, rfl, by simp [Instr.wf, Instr.registerOperands]⟩
theorem ret : Statement .ret := ⟨fun _ => rfl, rfl, rfl⟩

/-- The ten lemmas together. -/
theorem all (i : Instr) : Statement i := by
  cases i with
  | hlt => exact hlt
  | ldi a imm => exact ldi a imm
  | st a b => exact st a b
  | prn a => exact prn a
  | mul a b => exact mul a b
  | add a b => exact add a b
  | push a => exact push a
  | pop a => exact pop a
  | call a => exact call a
  | ret => exact ret

end Sys2Proof.Laws.EncodingShape
end

