-- ==== Sys2Proof/Laws/Step.lean ====
section
/-! SUPPORT. What the fetch and the step can do, once: an equation per case and one inversion lemma each. -/

namespace Sys2Proof.Machine

/-! ## The fetch -/

theorem fetchWith_outside (m : OpcodeMap) {s : State} (h : 256 ≤ s.pc) :
    fetchWith m s = .error ⟨.outOfBounds, s.pc⟩ := by
  simp [fetchWith, fetchBytes, Memory.window_outside _ h, decodeWith, decodeFault]

theorem fetchBytes_cons {s : State} (h : s.pc < 256) :
    fetchBytes s = s.mem.read s.pc :: s.mem.window 2 (s.pc + 1) :=
  Memory.window_succ _ h

theorem fetchWith_illegal {m : OpcodeMap} {s : State} (h : s.pc < 256)
    (hl : m.lookup (s.mem.read s.pc) = none) :
    fetchWith m s = .error ⟨.illegalOpcode, (s.mem.read s.pc).toNat⟩ := by
  simp [fetchWith, fetchBytes_cons h, decodeWith_illegal hl, decodeFault]

theorem fetchWith_noFirst {m : OpcodeMap} {s : State} {o : Op} (h : s.pc < 256)
    (hl : m.lookup (s.mem.read s.pc) = some o) (hc : 1 ≤ o.operandCount) (hp : s.pc + 1 = 256) :
    fetchWith m s = .error ⟨.outOfBounds, s.pc + 1⟩ := by
  simp [fetchWith, fetchBytes_cons h, decodeWith_lookup hl, Memory.window_outside _ (Nat.le_of_eq hp.symm),
    decodeOperands_nil hc, decodeFault]

theorem fetchWith_noSecond {m : OpcodeMap} {s : State} {o : Op} (h : s.pc < 256)
    (hl : m.lookup (s.mem.read s.pc) = some o) (hc : o.operandCount = 2) (hp : s.pc + 2 = 256) :
    fetchWith m s = .error ⟨.outOfBounds, s.pc + 2⟩ := by
  rw [fetchWith, fetchBytes_cons h, decodeWith_lookup hl, Memory.window_succ _ (by omega),
    Memory.window_outside _ (by omega), decodeOperands_one hc]
  rfl

theorem fetchWith_ok {m : OpcodeMap} {s : State} {o : Op} (h : s.pc + o.operandCount < 256)
    (hl : m.lookup (s.mem.read s.pc) = some o) :
    fetchWith m s = .ok (o.instr (s.mem.read (s.pc + 1)) (s.mem.read (s.pc + 2))) := by
  have hw : o.operandCount ≤ (s.mem.window 2 (s.pc + 1)).length := by
    rcases Nat.lt_or_ge (s.pc + 2) 256 with hp | hp
    · rw [Memory.window_succ _ (by omega), Memory.window_succ _ (by omega)]
      cases o <;> simp [Op.operandCount, Memory.window]
    rcases Nat.lt_or_ge (s.pc + 1) 256 with hp1 | hp1
    · rw [Memory.window_succ _ (by omega), Memory.window_outside _ (by omega)]
      simp only [List.length_cons, List.length_nil]; omega
    · omega
  rw [fetchWith, fetchBytes_cons (by omega), decodeWith_lookup hl, decodeOperands_all hw]
  · intro h1
    rcases Nat.lt_or_ge (s.pc + 1) 256 with hp | hp
    · simp [Memory.window_succ _ hp]
    · simp [Memory.window_outside _ hp] at h1
  · intro h2
    rcases Nat.lt_or_ge (s.pc + 2) 256 with hp | hp
    · simp [Memory.window_succ _ (show s.pc + 1 < 256 by omega), Memory.window_succ _ hp]
    · rcases Nat.lt_or_ge (s.pc + 1) 256 with hp1 | hp1
      · rw [Memory.window_succ _ hp1, Memory.window_outside _ (by omega)] at h2
        simp at h2
      · simp [Memory.window_outside _ hp1] at h2

/-- Everything the fetch can answer, with the condition of each answer. -/
theorem fetchWith_cases (m : OpcodeMap) (s : State) :
    (256 ≤ s.pc ∧ fetchWith m s = .error ⟨.outOfBounds, s.pc⟩) ∨
    (s.pc < 256 ∧ m.lookup (s.mem.read s.pc) = none ∧
      fetchWith m s = .error ⟨.illegalOpcode, (s.mem.read s.pc).toNat⟩) ∨
    (∃ o, s.pc < 256 ∧ m.lookup (s.mem.read s.pc) = some o ∧
      ((1 ≤ o.operandCount ∧ s.pc + 1 = 256 ∧ fetchWith m s = .error ⟨.outOfBounds, s.pc + 1⟩) ∨
       (o.operandCount = 2 ∧ s.pc + 2 = 256 ∧ fetchWith m s = .error ⟨.outOfBounds, s.pc + 2⟩) ∨
       (s.pc + o.operandCount < 256 ∧
         fetchWith m s = .ok (o.instr (s.mem.read (s.pc + 1)) (s.mem.read (s.pc + 2)))))) := by
  rcases Nat.lt_or_ge s.pc 256 with h | h
  · rcases hl : m.lookup (s.mem.read s.pc) with _ | o
    · exact .inr (.inl ⟨h, rfl, fetchWith_illegal h hl⟩)
    · refine .inr (.inr ⟨o, h, rfl, ?_⟩)
      have hc : o.operandCount ≤ 2 := by cases o <;> decide
      rcases Nat.lt_or_ge (s.pc + o.operandCount) 256 with hp | hp
      · exact .inr (.inr ⟨hp, fetchWith_ok hp hl⟩)
      · by_cases h1 : s.pc + 1 = 256
        · exact .inl ⟨by omega, h1, fetchWith_noFirst h hl (by omega) h1⟩
        · exact .inr (.inl ⟨by omega, by omega, fetchWith_noSecond h hl (by omega) (by omega)⟩)
  · exact .inl ⟨h, fetchWith_outside m h⟩

/-! ## The step -/

theorem stepWith_of_canStep {m : OpcodeMap} {s : State} (h : s.canStep) :
    stepWith m s = match fetchWith m s with
      | .ok i => exec i s
      | .error r => .next (raise r s) := by
  cases hf : fetchWith m s <;> simp only [stepWith, stopped_none.2 h, hf]

theorem stepWith_ok {m : OpcodeMap} {s : State} {i : Instr} (h : s.canStep) (hf : fetchWith m s = .ok i) :
    stepWith m s = exec i s := by
  rw [stepWith_of_canStep h, hf]

theorem stepWith_error {m : OpcodeMap} {s : State} {r : FaultRecord} (h : s.canStep)
    (hf : fetchWith m s = .error r) : stepWith m s = .next (raise r s) := by
  rw [stepWith_of_canStep h, hf]

/-- Everything a step that answers a next state can have done. -/
theorem stepWith_next {m : OpcodeMap} {s t : State} (h : stepWith m s = .next t) :
    s.canStep ∧
      ((∃ r, fetchWith m s = .error r ∧ t = raise r s) ∨ ∃ i, fetchWith m s = .ok i ∧ exec i s = .next t) := by
  unfold stepWith at h
  split at h
  · cases h
  · next hs =>
    refine ⟨stopped_none.1 hs, ?_⟩
    split at h
    · next i hf => exact .inr ⟨i, hf, h⟩
    · next r hf => cases h; exact .inl ⟨r, hf, rfl⟩

/-- A step that answers a next state has taken a fault, or has executed the operation its opcode byte selects, all
of whose bytes lie inside memory, with the bytes that follow the opcode. -/
theorem stepWith_cases {m : OpcodeMap} {s t : State} (h : stepWith m s = .next t) :
    s.canStep ∧
      ((∃ r, t = raise r s) ∨
        ∃ o, s.pc + o.operandCount < 256 ∧ m.byteOf o = s.mem.read s.pc ∧
          exec (o.instr (s.mem.read (s.pc + 1)) (s.mem.read (s.pc + 2))) s = .next t) := by
  obtain ⟨hc, ⟨r, -, h⟩ | ⟨i, hf, h⟩⟩ := stepWith_next h
  · exact ⟨hc, .inl ⟨r, h⟩⟩
  · refine ⟨hc, .inr ?_⟩
    rcases fetchWith_cases m s with ⟨-, e⟩ | ⟨-, -, e⟩ | ⟨o, -, hl, ⟨-, -, e⟩ | ⟨-, -, e⟩ | ⟨hp, e⟩⟩ <;>
      rw [hf] at e <;> cases e
    exact ⟨o, hp, OpcodeMap.lookup_some hl, h⟩

end Sys2Proof.Machine
end

