-- ==== Sys2Proof/Tests/Slice0.lean ====
section
/-! SUPPORT. Tests of the model: the well-formedness checks, decoding of words written out from 30_encoding.md,
single steps with the results 95_test_vectors.md gives (the vector's id stands in each docstring), and for
every statement with hypotheses a witness that meets them together. -/

namespace Sys2Proof.Tests
open Sys2Proof.Machine

/-! ## Helpers -/

/-- Does the outcome answer a next state with this property? -/
def nextSat (o : Host.Outcome State Fault Refusal) (p : State → Bool) : Bool :=
  match o with
  | .next t => p t
  | .fault _ => false
  | .refused _ => false

/-- Does the outcome raise this fault in `s`, with everything else of `s` as it was? -/
def raisesIn (s : State) (kind : FaultKind) (info : Nat) (o : Host.Outcome State Fault Refusal) : Bool :=
  nextSat o fun t => t == { s with fault := some ⟨kind, info⟩ }

/-- The reset state with the program counter at `pc`, bytes placed there, and these registers. -/
def place (pc : Nat) (bytes : List Byte) (regs : Vector Byte 8) : State :=
  { State.reset with pc := pc, mem := State.reset.mem.writeBytes pc bytes, regs := regs }

/-- The registers after reset. -/
def rs : Vector Byte 8 := State.reset.regs

/-! ## Well-formedness: each check refuses an ill-formed term -/

theorem test_wf_ldi : Instr.wf (.ldi 8 0) = false := by decide
theorem test_wf_ldi_immediate_unchecked : Instr.wf (.ldi 7 255) = true := by decide
theorem test_wf_st_first : Instr.wf (.st 8 7) = false := by decide
theorem test_wf_st_second : Instr.wf (.st 7 8) = false := by decide
theorem test_wf_prn : Instr.wf (.prn 255) = false := by decide
theorem test_wf_mul_first : Instr.wf (.mul 9 0) = false := by decide
theorem test_wf_mul_second : Instr.wf (.mul 0 9) = false := by decide
theorem test_wf_add_first : Instr.wf (.add 16 0) = false := by decide
theorem test_wf_add_second : Instr.wf (.add 0 16) = false := by decide
theorem test_wf_push : Instr.wf (.push 8) = false := by decide
theorem test_wf_pop : Instr.wf (.pop 200) = false := by decide
theorem test_wf_call : Instr.wf (.call 8) = false := by decide

/-! ## Decoding: words written out from R60 and R66 -/

theorem test_decode_hlt : decode [0b00000001] = .ok (.hlt, []) := by decide
theorem test_decode_ldi : decode [0b10000010, 0b00000111, 0b10000000] = .ok (.ldi 7 0x80, []) := by decide
theorem test_decode_st : decode [0b10000100, 0b00000010, 0b00000001] = .ok (.st 2 1, []) := by decide
theorem test_decode_prn : decode [0b01000111, 0b00000001, 0xAB] = .ok (.prn 1, [0xAB]) := by decide
theorem test_decode_mul : decode [0b10100010, 0b00000000, 0b00000001] = .ok (.mul 0 1, []) := by decide
theorem test_decode_add : decode [0b10100000, 0b00000001, 0b00000000] = .ok (.add 1 0, []) := by decide
theorem test_decode_push : decode [0b01000101, 0b00000011] = .ok (.push 3, []) := by decide
theorem test_decode_pop : decode [0b01000110, 0b00000100] = .ok (.pop 4, []) := by decide
theorem test_decode_call : decode [0b01010000, 0b00000101] = .ok (.call 5, []) := by decide
theorem test_decode_ret : decode [0b00010001] = .ok (.ret, []) := by decide
/-- V-F-7: one bit away from LDI is illegal. -/
theorem test_decode_illegal : decode [0x83, 0, 0] = .error (.illegalOpcode 0x83) := by decide
theorem test_decode_no_bytes : decode [] = .error (.truncated 0) := by decide
theorem test_decode_truncated : decode [0x82, 0x00] = .error (.truncated 2) := by decide
/-- R63: a register operand byte is not masked. -/
theorem test_decode_register_not_masked : decode [0x47, 0xFF] = .ok (.prn 0xFF, []) := by decide
/-- Opcode in bits 7..0, operand byte 1 in bits 15..8, operand byte 2 in bits 23..16. -/
theorem test_decodeTableWord : decodeTableWord 24 0x080382 = some (.ldi 3 8) := by decide
theorem test_decodeTableWord_short : decodeTableWord 8 0x47 = some (.prn 0) := by decide
theorem test_withFetchWord :
    nextSat (step (State.reset.withFetchWord 24 0x080382)) (fun t => t.reg 3 == 8 && t.pc == 3) = true := by
  decide

/-! ## Single steps -/

/-- V-HLT-1. -/
theorem test_hlt : nextSat (step (place 0x0B [0x01] rs)) (fun t => t.run == .halted && t.pc == 0x0B) = true := by
  decide
/-- V-HLT-2. -/
theorem test_hlt_last_byte :
    nextSat (step (place 0xFF [0x01] rs)) (fun t => t.run == .halted && t.pc == 0xFF && t.fault == none) = true := by
  decide
/-- V-LDI-4. -/
theorem test_ldi_sp : nextSat (step (place 0 [0x82, 7, 0x80] rs)) (fun t => t.sp == 0x80 && t.pc == 3) = true := by
  decide
/-- V-LDI-5. -/
theorem test_ldi_last_place :
    nextSat (step (place 0xFD [0x82, 1, 9] rs)) (fun t => t.reg 1 == 9 && t.pc == 256) = true := by decide
/-- V-ST-3: the store lands on its own operand byte. -/
theorem test_st_own_operand :
    nextSat (step (place 0x20 [0x84, 0, 1] #v[0x21, 5, 0, 0, 0, 0, 0, 0xF4]))
      (fun t => t.mem.read 0x21 == 5 && t.pc == 0x23) = true := by decide
/-- V-ST-4. -/
theorem test_st_at_sp :
    nextSat (step (place 0 [0x84, 7, 0] #v[0xAB, 0, 0, 0, 0, 0, 0, 0xF4]))
      (fun t => t.mem.read 0xF4 == 0xAB && t.sp == 0xF4 && t.pc == 3) = true := by decide
/-- V-PRN-2. -/
theorem test_prn_unsigned :
    nextSat (step (place 0 [0x47, 1] #v[0, 0xC8, 0, 0, 0, 0, 0, 0xF4]))
      (fun t => t.out == [200] && t.pc == 2) = true := by decide
/-- V-PRN-4. -/
theorem test_prn_last_place :
    nextSat (step (place 0xFE [0x47, 2] #v[0, 0, 1, 0, 0, 0, 0, 0xF4]))
      (fun t => t.out == [1] && t.pc == 256) = true := by decide
/-- V-MUL-4. -/
theorem test_mul_wraps :
    nextSat (step (place 0 [0xA2, 0, 1] #v[0xC8, 3, 0, 0, 0, 0, 0, 0xF4]))
      (fun t => t.reg 0 == 88 && t.reg 1 == 3 && t.pc == 3) = true := by decide
/-- V-MUL-9. -/
theorem test_mul_square :
    nextSat (step (place 0 [0xA2, 2, 2] #v[0, 0, 0x0F, 0, 0, 0, 0, 0xF4])) (fun t => t.reg 2 == 0xE1) = true := by
  decide
/-- V-ADD-2, the source's boundary case. -/
theorem test_add_wraps :
    nextSat (step (place 0 [0xA0, 0, 1] #v[0xFF, 2, 0, 0, 0, 0, 0, 0xF4]))
      (fun t => t.reg 0 == 1 && t.reg 1 == 2 && t.pc == 3) = true := by decide
/-- V-ADD-11. -/
theorem test_add_to_sp :
    nextSat (step (place 0 [0xA0, 7, 1] #v[0, 4, 0, 0, 0, 0, 0, 0xF4])) (fun t => t.sp == 0xF8) = true := by decide
/-- V-PUSH-2. -/
theorem test_push_sp :
    nextSat (step (place 0 [0x45, 7] rs)) (fun t => t.sp == 0xF3 && t.mem.read 0xF3 == 0xF3 && t.pc == 2) = true := by
  decide
/-- V-PUSH-3. -/
theorem test_push_wraps :
    nextSat (step (place 0x10 [0x45, 1] #v[0, 0x99, 0, 0, 0, 0, 0, 0]))
      (fun t => t.sp == 0xFF && t.mem.read 0xFF == 0x99 && t.pc == 0x12 && t.fault == none) = true := by decide
/-- V-POP-2. -/
theorem test_pop_sp :
    nextSat (exec (.pop 7) (place 0xF3 [0x20] #v[0, 0, 0, 0, 0, 0, 0, 0xF3])) (fun t => t.sp == 0x21) = true := by
  decide
/-- V-POP-3. -/
theorem test_pop_wraps :
    nextSat (exec (.pop 2) (place 0xFF [0x5A] #v[0, 0, 0, 0, 0, 0, 0, 0xFF]))
      (fun t => t.reg 2 == 0x5A && t.sp == 0 && t.fault == none) = true := by decide
/-- V-CALL-2. -/
theorem test_call_sp :
    nextSat (step (place 0x30 [0x50, 7] rs)) (fun t => t.sp == 0xF3 && t.mem.read 0xF3 == 0x32 && t.pc == 0xF3) = true := by
  decide
/-- V-CALL-7: the stack slot is the CALL's own operand byte. -/
theorem test_call_own_operand :
    nextSat (step (place 0x10 [0x50, 0] #v[0x40, 0, 0, 0, 0, 0x50, 0, 0x12]))
      (fun t => t.sp == 0x11 && t.mem.read 0x11 == 0x12 && t.pc == 0x40) = true := by decide
/-- V-RET-2, at the address where the byte stands. -/
theorem test_ret_wraps :
    nextSat (exec .ret (place 0xFF [0x33] #v[0, 0, 0, 0, 0, 0, 0, 0xFF])) (fun t => t.pc == 0x33 && t.sp == 0) = true := by
  decide
/-- V-RET-3. -/
theorem test_ret_empty_stack : nextSat (step (place 0x0E [0x11] rs)) (fun t => t.pc == 0 && t.sp == 0xF5) = true := by
  decide

/-! ## Faults and stops -/

/-- V-F-1 and V-F-2. -/
theorem test_fault_fetch :
    raisesIn (place 256 [] rs) .outOfBounds 256 (step (place 256 [] rs)) = true ∧
    raisesIn (place 258 [] rs) .outOfBounds 258 (step (place 258 [] rs)) = true := by decide
/-- V-F-3. -/
theorem test_fault_illegal_at_255 :
    raisesIn (place 255 [0xFF] rs) .illegalOpcode 255 (step (place 255 [0xFF] rs)) = true := by decide
/-- V-F-5: operand fetch precedes register validation. -/
theorem test_fault_operand_before_register :
    raisesIn (place 254 [0x82, 9] rs) .outOfBounds 256 (step (place 254 [0x82, 9] rs)) = true := by decide
/-- V-F-6: the first operand is reported. -/
theorem test_fault_first_register :
    raisesIn (place 0 [0x84, 9, 10] rs) .invalidRegister 9 (step (place 0 [0x84, 9, 10] rs)) = true := by decide
/-- V-ST-5. -/
theorem test_fault_second_register :
    raisesIn (place 0 [0x84, 0, 9] rs) .invalidRegister 9 (step (place 0 [0x84, 0, 9] rs)) = true := by decide
/-- V-CALL-4 and V-CALL-9. -/
theorem test_fault_call_at_254 :
    raisesIn (place 254 [0x50, 1] rs) .outOfBounds 256 (step (place 254 [0x50, 1] rs)) = true ∧
    raisesIn (place 254 [0x50, 9] rs) .invalidRegister 9 (step (place 254 [0x50, 9] rs)) = true := by decide
/-- R90. -/
theorem test_halted_takes_no_step : step { State.reset with run := .halted } = .fault .halted := by rfl
/-- R9, R38: the reset state at other values of GPR_RESET and MEM_RESET. -/
theorem test_reset_with :
    (State.resetWith 5 0xFF).reg 6 = 5 ∧ (State.resetWith 5 0xFF).sp = 0xF4 ∧
    (State.resetWith 5 0xFF).mem.read 255 = 0xFF := ⟨rfl, rfl, Memory.read_filled 0xFF (by decide)⟩
/-- R172: one byte too many is refused. -/
theorem test_load_too_long : load (List.replicate 257 0) State.reset = .refused (.loadTooLong 257) := by
  rw [load, if_neg (by rw [List.length_replicate]; decide), List.length_replicate]
/-- R172. -/
theorem test_load : nextSat (load [0x82, 0, 8] State.reset) (fun t => t.mem == [(0, 0x82), (2, 8)]) = true := by
  decide

/-! ## Witnesses: the hypotheses of each statement, met together -/

/-- The hypothesis of every statement about opcode maps. -/
theorem witness_Distinct : opcodeMap.Distinct := by decide

theorem witness_DecodedBytesAreTheEncoding : decodeWith opcodeMap [0x82, 0xFF, 0xFF, 1] = .ok (.ldi 255 255, [1]) := by
  decide

theorem witness_StepRunsTheDecodedInstruction :
    (place 253 [0x82, 7, 1] rs).canStep ∧
    decodeWith opcodeMap (fetchBytes (place 253 [0x82, 7, 1] rs)) = .ok (.ldi 7 1, []) := by decide

theorem witness_StepRunsTheInstructionInMemory :
    (place 253 [0x82, 7, 1] rs).canStep ∧ 253 + (encodeWith opcodeMap (.ldi 7 1)).length ≤ 256 ∧
    (∀ k (h : k < (encodeWith opcodeMap (.ldi 7 1)).length),
      (place 253 [0x82, 7, 1] rs).mem.read (253 + k) = (encodeWith opcodeMap (.ldi 7 1))[k]) := by decide

theorem witness_OpcodeIsFetchedAtThePc :
    ((place 256 [] rs).canStep ∧ 256 ≤ (place 256 [] rs).pc) ∧
    ((place 255 [1] rs).canStep ∧ (place 255 [1] rs).pc < 256 ∧
      fetchWith opcodeMap (place 255 [1] rs) = .ok .hlt) := by decide

theorem witness_IllegalOpcodeRaises :
    (place 255 [0xFF] rs).canStep ∧ (place 255 [0xFF] rs).pc < 256 ∧
    ∀ o, opcodeMap.byteOf o ≠ (place 255 [0xFF] rs).mem.read (place 255 [0xFF] rs).pc :=
  ⟨by decide, by decide, fun o => by cases o <;> decide⟩

theorem witness_InvalidRegisterRaises :
    (∃ b ∈ (Instr.st 7 8).registerOperands, 8 ≤ b.toNat) ∧
    ((∀ b ∈ (Instr.st 7 7).registerOperands, b.toNat < 8) ∧ State.reset.fault = none ∧
      ∃ t, exec (.st 7 7) State.reset = .next t) :=
  ⟨by decide, by decide, rfl, _, rfl⟩

/-- The fetch clauses of FaultsAreRaisedInOrder and of StepsAs, for every operation: at 255 (no first operand
byte), at 254 (no second), and at the last address where the whole instruction fits. -/
theorem witness_StepsAs :
    ((place 256 [] rs).canStep ∧ 256 ≤ (place 256 [] rs).pc) ∧
    ∀ o ∈ Op.all, ∀ p ∈ [255, 254, 255 - o.operandCount],
      (place p [opcodeMap.byteOf o] rs).canStep ∧ (place p [opcodeMap.byteOf o] rs).pc < 256 ∧
      (place p [opcodeMap.byteOf o] rs).mem.read p = opcodeMap.byteOf o ∧
      255 - o.operandCount + o.operandCount < 256 := by decide

/-- The operand clauses of FaultsAreRaisedInOrder: register 1, register 2, the return address, none. -/
theorem witness_FaultsAreRaisedInOrder :
    (1 ≤ Op.st.operandCount ∧ 8 ≤ ((place 253 [0x84, 8, 8] rs).mem.read 254).toNat) ∧
    (Op.st.secondIsRegister ∧ ((place 253 [0x84, 7, 8] rs).mem.read 254).toNat < 8 ∧
      8 ≤ ((place 253 [0x84, 7, 8] rs).mem.read 255).toNat) ∧
    (((place 254 [0x50, 7] rs).mem.read 255).toNat < 8 ∧ (place 254 [0x50, 7] rs).pc = 254 ∧
      254 + Op.call.operandCount < 256) ∧
    (((place 253 [0x84, 7, 7] rs).mem.read 254).toNat < 8 ∧ ((place 253 [0x84, 7, 7] rs).mem.read 255).toNat < 8 ∧
      ¬ (Op.st = .call ∧ (place 253 [0x84, 7, 7] rs).pc = 254)) := by decide

theorem witness_AStepCompletesOrChangesOnlyTheFaultRecord : State.reset.canStep := by decide

theorem witness_AStoppedMachineTakesNoStep :
    (raise ⟨.illegalOpcode, 0⟩ State.reset).fault = some ⟨.illegalOpcode, 0⟩ ∧
    (State.reset.halt.fault = none ∧ State.reset.halt.run = .halted) ∧ ¬ State.reset.halt.canStep ∧
    State.reset.canStep := by decide

/-- A step that answers a next state, for the statements about every such step: HLT at 255. -/
theorem witness_HltIsTheOnlyWayToHalted :
    (∃ t, stepWith opcodeMap (place 255 [1] rs) = .next t ∧ t.run = .halted) ∧
    (place 255 [1] rs).pc < 256 ∧ (place 255 [1] rs).mem.read 255 = opcodeMap.hlt :=
  ⟨⟨_, rfl, rfl⟩, by decide, by decide⟩

theorem witness_CompletedInstructionsAdvanceThePc :
    (∃ t, stepWith opcodeMap (place 253 [0xA0, 0, 0] rs) = .next t ∧ t.fault = none) ∧
    (place 253 [0xA0, 0, 0] rs).mem.read 253 ∈ [opcodeMap.ldi, opcodeMap.st, opcodeMap.mul, opcodeMap.add] ∧
    (∃ t, stepWith opcodeMap (place 254 [0x46, 7] rs) = .next t ∧ t.fault = none) ∧
    (place 254 [0x46, 7] rs).mem.read 254 ∈ [opcodeMap.prn, opcodeMap.push, opcodeMap.pop] :=
  ⟨⟨_, rfl, rfl⟩, by decide, ⟨_, rfl, rfl⟩, by decide⟩

theorem witness_OnlyStPushCallWriteMemory :
    ((place 0 [0x84, 7, 7] rs).mem.wf ∧ ∃ t, stepWith opcodeMap (place 0 [0x84, 7, 7] rs) = .next t ∧
      t.mem.read 0xF4 ≠ (place 0 [0x84, 7, 7] rs).mem.read 0xF4) ∧
    ((place 0 [0x45, 7] rs).mem.wf ∧ ∃ t, stepWith opcodeMap (place 0 [0x45, 7] rs) = .next t ∧
      t.mem.read 0xF3 ≠ (place 0 [0x45, 7] rs).mem.read 0xF3) ∧
    ((place 253 [0x50, 7] rs).mem.wf ∧ ∃ t, stepWith opcodeMap (place 253 [0x50, 7] rs) = .next t ∧
      t.mem.read 0xF3 ≠ (place 253 [0x50, 7] rs).mem.read 0xF3) :=
  ⟨⟨by decide, _, rfl, by decide⟩, ⟨by decide, _, rfl, by decide⟩, ⟨by decide, _, rfl, by decide⟩⟩

theorem witness_RegistersAreWrittenAsTabled :
    (∃ t, stepWith opcodeMap (place 0 [0x82, 7, 1] rs) = .next t ∧ t.reg 7 ≠ (place 0 [0x82, 7, 1] rs).reg 7) ∧
    (∃ t, stepWith opcodeMap (place 0 [0x11] rs) = .next t ∧ t.reg 7 ≠ (place 0 [0x11] rs).reg 7) :=
  ⟨⟨_, rfl, by decide⟩, ⟨_, rfl, by decide⟩⟩

theorem witness_OnlyPrnEmits :
    ∃ t, stepWith opcodeMap (place 254 [0x47, 7] rs) = .next t ∧ t.out ≠ (place 254 [0x47, 7] rs).out :=
  ⟨_, rfl, by decide⟩

theorem witness_OutputInfluencesNoStep :
    (∃ t, stepWith opcodeMap (place 254 [0x47, 7] rs) = .next t) ∧
    (∃ f, stepWith opcodeMap State.reset.halt = .fault f) := ⟨⟨_, rfl⟩, ⟨_, rfl⟩⟩

theorem witness_EveryStepKeepsTheInvariant :
    (place 253 [0x84, 7, 7] rs).Inv opcodeMap ∧ ∃ t, step (place 253 [0x84, 7, 7] rs) = .next t ∧ t.pc = 256 :=
  ⟨by decide, _, rfl, rfl⟩

theorem witness_EveryHostActionKeepsTheInvariant :
    State.reset.Inv opcodeMap ∧ (∃ t, actWith openParams State.reset (.load [1]) = .next t) ∧
    (∃ t, actWith openParams State.reset (.run 2) = .next t) ∧ ∃ t, actWith openParams State.reset .reset = .next t :=
  ⟨by decide, ⟨_, rfl⟩, ⟨_, rfl⟩, ⟨_, rfl⟩⟩

/-- The operand hypotheses of the ten instructions, at the boundary: the greatest legal register byte and the least
illegal one, canonical memory, the last address of a CALL and the first where it faults.  The fetch clause is
`witness_StepsAs`, with `witness_Distinct`. -/
theorem witness_instructions :
    (7 : Byte).toNat < 8 ∧ 8 ≤ (8 : Byte).toNat ∧ State.reset.mem.wf ∧ (place 253 [] rs).pc ≤ 253 ∧
    254 ≤ (place 254 [] rs).pc := by decide

theorem witness_MemoryAccessesKeepTheBoundsContract : State.reset.mem.wf ∧ 255 < 256 ∧ 256 ≤ 256 := by decide

theorem witness_MemoriesThatReadTheSameAreEqual :
    Memory.wf [(0, 1), (255, 2)] ∧ (∀ a, a < 256 → Memory.read [(0, 1), (255, 2)] a = Memory.read [(0, 1), (255, 2)] a) :=
  ⟨by decide, fun _ _ => rfl⟩

/-- The state PUSH left is itself a later state of the kind POP is said to act on; register 7 and another. -/
theorem witness_PushPopRestoresTheRegister :
    (7 : Byte).toNat < 8 ∧ State.reset.mem.wf ∧
    ∃ t, exec (.push 7) State.reset = .next t ∧
      ∃ u : State, u.sp = t.sp ∧ u.mem.read t.sp.toNat = t.mem.read t.sp.toNat :=
  ⟨by decide, by decide, _, rfl, _, rfl, rfl⟩

/-- Each clause: neither register is 7, the source is, the destination is, both are. -/
theorem witness_PushThenPopCopies :
    State.reset.mem.wf ∧ (6 : Byte).toNat < 8 ∧ (7 : Byte).toNat < 8 ∧ (6 : Byte).toNat ≠ 7 ∧ (7 : Byte).toNat = 7 := by
  decide

theorem witness_RetReturnsAfterTheCall :
    (7 : Byte).toNat < 8 ∧ (place 253 [] rs).mem.wf ∧ (place 253 [] rs).pc ≤ 253 ∧
    ∃ t, exec (.call 7) (place 253 [] rs) = .next t ∧
      ∃ u : State, u.sp = t.sp ∧ u.mem.read t.sp.toNat = t.mem.read t.sp.toNat :=
  ⟨by decide, by decide, by decide, _, rfl, _, rfl, rfl⟩

theorem witness_NestedCallsReturnToTheFirst :
    (place 253 [] rs).mem.wf ∧ ([0, 7] : List Byte) ≠ [] ∧ ([0, 7] : List Byte).length ≤ 256 ∧
    (∀ a ∈ ([0, 7] : List Byte), a.toNat < 8) ∧ (place 253 [] rs).fault = none ∧
    ∃ t, execAll (([0, 7] : List Byte).map .call) (place 253 [] rs) = .next t ∧ t.fault = none :=
  ⟨by decide, by decide, by decide, by decide, rfl, _, rfl, rfl⟩

theorem witness_TheStackPointerWrapsAtBothEnds :
    ((7 : Byte).toNat < 8 ∧ (place 253 [] #v[0, 0, 0, 0, 0, 0, 0, 0]).mem.wf ∧
      (place 253 [] #v[0, 0, 0, 0, 0, 0, 0, 0]).fault = none ∧ (place 253 [] #v[0, 0, 0, 0, 0, 0, 0, 0]).sp = 0 ∧
      (place 253 [] #v[0, 0, 0, 0, 0, 0, 0, 0]).pc ≤ 253) ∧
    (place 253 [] #v[0, 0, 0, 0, 0, 0, 0, 255]).sp = 255 := by decide

/-- The store lands on the instruction fetched next: ST at 0 into 3; PUSH at 0 onto 2, of another register and of
register 7; a CALL through register 7 and through another register that holds the stack slot's address. -/
theorem witness_AStoreIsSeenByTheNextFetch :
    (∃ t, exec (.st 0 1) (place 0 [] #v[3, 1, 0, 0, 0, 0, 0, 0]) = .next t ∧ (3 : Byte).toNat = t.pc) ∧
    (∃ t, exec (.push 0) (place 0 [] #v[1, 0, 0, 0, 0, 0, 0, 3]) = .next t ∧ ((3 : Byte) - 1).toNat = t.pc) ∧
    (∃ t, exec (.push 7) (place 0 [] #v[1, 0, 0, 0, 0, 0, 0, 3]) = .next t ∧ ((3 : Byte) - 1).toNat = t.pc) ∧
    (∃ t, exec (.call 0) (place 253 [] #v[2, 0, 0, 0, 0, 0, 0, 3]) = .next t ∧ ((3 : Byte) - 1).toNat = t.pc) ∧
    State.reset.mem.wf ∧ (7 : Byte).toNat = 7 ∧ (place 253 [] rs).pc ≤ 253 :=
  ⟨⟨_, rfl, rfl⟩, ⟨_, rfl, rfl⟩, ⟨_, rfl, rfl⟩, ⟨_, rfl, rfl⟩, by decide, by decide, by decide⟩

/-- Clauses of ResetLeavesTheParameters: a register other than 7, the last address, a byte that is no opcode. -/
theorem witness_ResetLeavesTheParameters :
    (6 : RegIdx) ≠ 7 ∧ 255 < 256 ∧ ∀ o, opcodeMap.byteOf o ≠ 0xFF :=
  ⟨by decide, by decide, fun o => by cases o <;> decide⟩

/-- The greatest value of the program counter, and an instruction that completes at the last address it can. -/
theorem witness_ThePcStaysInItsRange :
    ((place 258 [] rs).pc ≤ Config.pcMax ∧ ∃ t, stepWith opcodeMap (place 258 [] rs) = .next t) ∧
    ((place 253 [0xA0, 0, 0] rs).pc ≤ Config.pcMax ∧
      ∃ t, stepWith opcodeMap (place 253 [0xA0, 0, 0] rs) = .next t ∧ t.fault = none) :=
  ⟨⟨by decide, _, rfl⟩, by decide, _, rfl, rfl⟩

theorem witness_AStoppedRunContinues : ∃ t, stepWith opcodeMap (place 255 [1] rs) = .next t := ⟨_, rfl⟩

theorem witness_LoadPlacesTheBytes :
    State.reset.mem.wf ∧ (List.replicate 256 (1 : Byte)).length ≤ 256 ∧ 256 < (List.replicate 257 (1 : Byte)).length :=
  ⟨by decide, by rw [List.length_replicate], by rw [List.length_replicate]; decide⟩

theorem witness_TheLoadedProgramRunsFromItsFirstInstruction :
    (encodeWith opcodeMap (.ldi 0 8) ++ List.replicate 253 1).length ≤ 256 := by
  rw [List.length_append, List.length_replicate]; decide

theorem witness_OnlyResetLeavesAStop :
    ¬ State.reset.halt.canStep ∧ HostAction.load [1] ≠ .reset ∧ HostAction.run 1 ≠ .reset ∧
    (∃ t, actWith openParams State.reset.halt (.load [1]) = .next t) ∧
    ∃ t, actWith openParams State.reset.halt (.run 1) = .next t :=
  ⟨by decide, by decide, by decide, ⟨_, rfl⟩, ⟨_, rfl⟩⟩

/-- A run that ends by HLT and one that ends by a fault. -/
theorem witness_ARunEndsByHltOrByAFault :
    ((place 255 [1] rs).canStep ∧ ¬ (runWith opcodeMap 1 (place 255 [1] rs)).canStep) ∧
    (State.reset.canStep ∧ ¬ (runWith opcodeMap 1 State.reset).canStep) := by decide

end Sys2Proof.Tests
end

section
/-! PROOFS. The bounds contract of the two memory accesses (20_memory.md rule R41). -/

namespace Sys2Proof.Machine

/-- In a canonical memory, storing a byte changes what is read at its own address only. -/
theorem State.setByte_storedOnly {s : State} (hw : s.mem.wf) (a : Nat) (v : Byte) :
    StoredOnly a v s (s.setByte a v) :=
  ⟨Memory.read_write_same hw a v, fun _ hb => Memory.read_write_ne hw hb v⟩

/-- Storing a byte changes no item of state but memory. -/
theorem State.setByte_frame (s : State) (a : Nat) (v : Byte) :
    s.setByte a v = { s with mem := (s.setByte a v).mem } := rfl

/-- Settles O34: inside memory both accesses succeed and the state written is `setByte`'s, whose effect and frame
are the two lemmas above; outside both fail with the address. -/
theorem memoryAccessesKeepTheBoundsContract : Obligations.MemoryAccessesKeepTheBoundsContract := by
  intro s a v hw
  constructor
  · intro hin
    exact ⟨s.memRead_in hin, s.setByte a v, s.memWrite_in hin v, State.setByte_storedOnly hw a v,
      s.setByte_frame a v⟩
  · intro hout
    exact ⟨s.memRead_out hout, s.memWrite_out hout v⟩

end Sys2Proof.Machine
end

section
/-! PROOFS. The opcode fetch (40_fetch_dispatch.md rule R81) and the sequential advance of the program counter (R85). -/

namespace Sys2Proof

/-- The operations R85 speaks of: not HLT, which stays at its address, nor CALL and RET, which load the program
counter. -/
abbrev Op.IsSequential (o : Op) : Prop := o ≠ .hlt ∧ o ≠ .call ∧ o ≠ .ret

end Sys2Proof

namespace Sys2Proof.Machine

/-! ## The opcode fetch -/

/-- An instruction fetched is of the operation whose opcode byte memory holds at the program counter. -/
theorem fetchWith_op {m : OpcodeMap} {s : State} {i : Instr} (hf : fetchWith m s = .ok i) :
    m.byteOf i.op = s.mem.read s.pc := by
  rcases fetchWith_cases m s with ⟨-, e⟩ | ⟨-, -, e⟩ | ⟨o, -, hl, ⟨-, -, e⟩ | ⟨-, -, e⟩ | ⟨-, e⟩⟩ <;>
    rw [hf] at e <;> cases e
  rw [Op.instr_op, OpcodeMap.lookup_some hl]

/-- Settles O8: outside memory the fetch fails with the address, and the step raises that; inside, what is fetched
is of the operation the opcode byte selects. -/
theorem opcodeIsFetchedAtThePc : Obligations.OpcodeIsFetchedAtThePc := by
  intro m s hc
  exact ⟨fun hout => stepWith_error hc (fetchWith_outside m hout), fun _ _ hf => fetchWith_op hf⟩

/-! ## The sequential advance -/

/-- A sequential meaning that takes no fault leaves the address after its operand bytes.  The cases go by how many
operand bytes name a register: a meaning completes where all of them are in range, and raises elsewhere. -/
theorem exec_pc_of_sequential {i : Instr} {s t : State} (hi : i.op.IsSequential) (h : exec i s = .next t)
    (hf : t.fault = none) : t.pc = s.pc + (1 + i.op.operandCount) := by
  obtain ⟨hhlt, hcall, hret⟩ := hi
  cases i with
  | hlt => exact absurd rfl hhlt
  | call => exact absurd rfl hcall
  | ret => exact absurd rfl hret
  | ldi | prn | push | pop =>
    simp only [exec, execLdi_eq, execPrn_eq, execPush_eq, execPop_eq] at h
    split at h
    · cases h; rfl
    · cases h; cases hf
  | st | mul | add =>
    simp only [exec, execSt_eq, execMul_eq, execAdd_eq, execArith_eq] at h
    split at h
    · split at h
      · cases h; rfl
      · cases h; cases hf
    · cases h; cases hf

/-- Where the opcode byte is that of one of some sequential operations, all with `n` operand bytes, a step that takes
no fault leaves the address after the instruction: distinct bytes leave no other operation it can have executed. -/
theorem stepWith_pc_of_sequential {m : OpcodeMap} (hm : m.Distinct) {s t : State} (h : stepWith m s = .next t)
    (hf : t.fault = none) {ops : List Op} {n : Nat} (hops : ∀ o ∈ ops, o.IsSequential ∧ o.operandCount = n)
    (hb : s.mem.read s.pc ∈ ops.map m.byteOf) : t.pc = s.pc + (1 + n) := by
  obtain ⟨-, ⟨r, rfl⟩ | ⟨o, -, ho, he⟩⟩ := stepWith_cases h
  · cases hf
  · obtain ⟨p, hp, hpb⟩ := List.mem_map.1 hb
    obtain rfl : p = o := OpcodeMap.byteOf_injective hm (hpb.trans ho.symm)
    obtain ⟨hseq, rfl⟩ := hops p hp
    have hpc := exec_pc_of_sequential (by rwa [Op.instr_op]) he hf
    rwa [Op.instr_op] at hpc

/-- Settles O15: all seven operations are sequential; the first four have two operand bytes, the last three one. -/
theorem completedInstructionsAdvanceThePc : Obligations.CompletedInstructionsAdvanceThePc := by
  intro m hm s t h hf
  constructor
  · exact stepWith_pc_of_sequential hm h hf (ops := [.ldi, .st, .mul, .add]) (n := 2) (by decide)
  · exact stepWith_pc_of_sequential hm h hf (ops := [.prn, .push, .pop]) (n := 1) (by decide)

end Sys2Proof.Machine
end

section
/-! PROOFS. What holds of every instruction's meaning (the fetch of its bytes, R80 to R83, and the register operands
that stop it, R84 and R142), and LDI and ST (41_system_move_output.md rules R101 and R102). -/

namespace Sys2Proof.Machine

/-! ## Every operation -/

/-- A step executes the operation whose opcode byte is at the program counter, or takes the fetch fault of its first
byte beyond memory: distinct opcode bytes let the dispatch find that operation and no other. -/
theorem stepWith_stepsAs {m : OpcodeMap} (hm : m.Distinct) (o : Op) {s : State} (hc : s.canStep) :
    StepsAs m o s fun a b => exec (o.instr a b) s := by
  refine ⟨fun hout => stepWith_error hc (fetchWith_outside m hout), fun hin hop => ?_⟩
  have hl : m.lookup (s.mem.read s.pc) = some o := by rw [hop, OpcodeMap.lookup_byteOf hm]
  refine ⟨fun hcount hpc => ?noFirst, fun hcount hpc => ?noSecond, fun hfits => ?complete⟩
  case noFirst => exact stepWith_error hc (fetchWith_noFirst hin hl hcount hpc)
  case noSecond => exact stepWith_error hc (fetchWith_noSecond hin hl hcount hpc)
  case complete => exact stepWith_ok hc (fetchWith_ok hfits hl)

/-- Whatever follows it, a first register operand above 7 is what the instruction raises. -/
theorem exec_raises_first {i : Instr} {a : Byte} {bs : List Byte} (hi : i.registerOperands = a :: bs)
    (ha : 8 ≤ a.toNat) (s : State) : Raises (exec i s) s .invalidRegister a.toNat := by
  have hbad : ¬ a.toNat < 8 := Nat.not_lt.2 ha
  cases i with
  | hlt | ret => cases hi
  | ldi | prn | push | pop | call | st | mul | add =>
    cases hi
    simp only [exec, execLdi_eq, execPrn_eq, execPush_eq, execPop_eq, execCall_eq, execSt_eq, execMul_eq, execAdd_eq,
      execArith_eq, dif_neg hbad]
    rfl

/-- After a legal first one, a second register operand above 7 is what the instruction raises. -/
theorem exec_raises_second {i : Instr} {a b : Byte} (hi : i.registerOperands = [a, b]) (ha : a.toNat < 8)
    (hb : 8 ≤ b.toNat) (s : State) : Raises (exec i s) s .invalidRegister b.toNat := by
  have hbad : ¬ b.toNat < 8 := Nat.not_lt.2 hb
  cases i with
  | hlt | ret | ldi | prn | push | pop | call => cases hi
  | st | mul | add =>
    cases hi
    simp only [exec, execSt_eq, execMul_eq, execAdd_eq, execArith_eq, dif_pos ha, dif_neg hbad]
    rfl

/-! ## LDI -/

theorem exec_ldi_of_lt {a : Byte} (h : a.toNat < 8) (imm : Byte) (s : State) :
    exec (.ldi a imm) s = .next ((s.setReg ⟨a.toNat, h⟩ imm).advance 3) :=
  (execLdi_eq a imm s).trans (dif_pos h)

theorem State.setReg_advance_ldiEffect (s : State) (r : RegIdx) (imm : Byte) :
    LdiEffect r imm s ((s.setReg r imm).advance 3) where
  dest := s.setReg_reg_same r imm
  regs _ hq := s.setReg_reg_ne r imm hq
  pc := rfl
  mem _ := rfl
  status := ⟨rfl, rfl⟩
  out := rfl

/-- Settles O24: a legal register byte gives the one next state of `exec_ldi_of_lt`, whose effect is
`setReg_advance_ldiEffect`; the faults and the fetch are those of every operation. -/
theorem ldiLoadsTheImmediate : Obligations.LdiLoadsTheImmediate := by
  refine ⟨fun a imm s h => ?completes, fun a imm s ha => ?badRegister, fun m hm s hc => ?steps⟩
  case completes => exact ⟨_, exec_ldi_of_lt h imm s, s.setReg_advance_ldiEffect _ imm⟩
  case badRegister => exact exec_raises_first (i := .ldi a imm) rfl ha s
  case steps => exact stepWith_stepsAs hm .ldi hc

/-! ## ST -/

theorem exec_st_of_lt {a b : Byte} (ha : a.toNat < 8) (hb : b.toNat < 8) (s : State) :
    exec (.st a b) s =
      .next ((s.setByte (s.reg ⟨a.toNat, ha⟩).toNat (s.reg ⟨b.toNat, hb⟩)).advance 3) :=
  (execSt_eq a b s).trans ((dif_pos ha).trans (dif_pos hb))

/-- The canonical form of memory is what lets the store change the byte at its own address only. -/
theorem State.setByte_advance_stEffect {s : State} (hw : s.mem.wf) (ra rb : RegIdx) :
    StEffect ra rb s ((s.setByte (s.reg ra).toNat (s.reg rb)).advance 3) where
  stored := State.setByte_storedOnly hw (s.reg ra).toNat (s.reg rb)
  regs _ := rfl
  pc := rfl
  status := ⟨rfl, rfl⟩
  out := rfl

/-- Settles O25: legal register bytes give the one next state of `exec_st_of_lt`, whose effect is
`setByte_advance_stEffect`; the faults, operand 1 before operand 2, and the fetch are those of every operation. -/
theorem stStoresTheRegister : Obligations.StStoresTheRegister := by
  refine ⟨fun a b s ha hb hw => ?completes, fun a b s ha => ?badFirst, fun a b s ha hb => ?badSecond,
    fun m hm s hc => ?steps⟩
  case completes => exact ⟨_, exec_st_of_lt ha hb s, State.setByte_advance_stEffect hw _ _⟩
  case badFirst => exact exec_raises_first (i := .st a b) rfl ha s
  case badSecond => exact exec_raises_second (i := .st a b) rfl ha hb s
  case steps => exact stepWith_stepsAs hm .st hc

end Sys2Proof.Machine
end

section
/-! PROOFS. MUL and ADD (42_alu.md rules R110 and R111): what they share is proved for any operation `f` on bytes and
any exact result `n` whose low byte `f` keeps. -/

namespace Sys2Proof.Machine

/-- Both sources are read in the state before the destination is written, so `a = b` needs no case of its own. -/
theorem execArith_of_lt (f : Byte → Byte → Byte) {a b : Byte} (ha : a.toNat < 8) (hb : b.toNat < 8) (s : State) :
    execArith f a b s =
      .next ((s.setReg ⟨a.toNat, ha⟩ (f (s.reg ⟨a.toNat, ha⟩) (s.reg ⟨b.toNat, hb⟩))).advance 3) :=
  (execArith_eq f a b s).trans ((dif_pos ha).trans (dif_pos hb))

/-- The result is named by its low byte alone: nothing of it above bit 7 is kept anywhere (R112). -/
theorem State.setReg_advance_arithEffect (s : State) (r : RegIdx) {v : Byte} {n : Nat} (hv : v.toNat = n % 256) :
    ArithEffect r n s ((s.setReg r v).advance 3) where
  dest := by rw [State.advance_reg, State.setReg_reg_same, hv]
  regs _ hq := s.setReg_reg_ne r v hq
  pc := rfl
  mem _ := rfl
  status := ⟨rfl, rfl⟩
  out := rfl

/-- With legal register bytes an `f` that keeps the low byte of `n` has the effect R110 and R111 give. -/
theorem execArith_completes {f : Byte → Byte → Byte} {n : Nat} {a b : Byte} (ha : a.toNat < 8) (hb : b.toNat < 8)
    (s : State) (hf : (f (s.reg ⟨a.toNat, ha⟩) (s.reg ⟨b.toNat, hb⟩)).toNat = n % 256) :
    ∃ t, execArith f a b s = .next t ∧ ArithEffect ⟨a.toNat, ha⟩ n s t :=
  ⟨_, execArith_of_lt f ha hb s, s.setReg_advance_arithEffect _ hf⟩

/-! ## MUL -/

/-- Settles O27: the operation is `mulWrap`, which keeps the low byte of the product (`mulWrap_toNat`); the faults and the fetch
are those of every operation. -/
theorem mulKeepsTheLowByteOfTheProduct : Obligations.MulKeepsTheLowByteOfTheProduct := by
  refine ⟨fun a b s ha hb => ?completes, fun a b s ha => ?badFirst, fun a b s ha hb => ?badSecond,
    fun m hm s hc => ?steps⟩
  case completes => exact execArith_completes ha hb s (mulWrap_toNat _ _)
  case badFirst => exact exec_raises_first (i := .mul a b) rfl ha s
  case badSecond => exact exec_raises_second (i := .mul a b) rfl ha hb s
  case steps => exact stepWith_stepsAs hm .mul hc

/-! ## ADD -/

/-- Settles O28: the operation is `addWrap`, which keeps the low byte of the sum (`addWrap_toNat`); the faults and the fetch
are those of every operation. -/
theorem addKeepsTheLowByteOfTheSum : Obligations.AddKeepsTheLowByteOfTheSum := by
  refine ⟨fun a b s ha hb => ?completes, fun a b s ha => ?badFirst, fun a b s ha hb => ?badSecond,
    fun m hm s hc => ?steps⟩
  case completes => exact execArith_completes ha hb s (addWrap_toNat _ _)
  case badFirst => exact exec_raises_first (i := .add a b) rfl ha s
  case badSecond => exact exec_raises_second (i := .add a b) rfl ha hb s
  case steps => exact stepWith_stepsAs hm .add hc

end Sys2Proof.Machine
end

section
/-! PROOFS. The faults a bad byte causes (60_exceptions.md): a register operand byte above 7 (rule R142) and a byte that is
no opcode (rule R143). -/

namespace Sys2Proof.Machine

/-! ## InvalidRegister -/

/-- With a register operand above 7 the meaning can neither complete nor come to CALL's return-address check. -/
theorem exec_raises_of_bad_register {i : Instr} (hbad : ∃ b ∈ i.registerOperands, 8 ≤ b.toNat) (s : State) :
    ∃ b ∈ i.registerOperands, 8 ≤ b.toNat ∧ Raises (exec i s) s .invalidRegister b.toNat := by
  obtain ⟨b, hb, h8⟩ := hbad
  obtain ⟨t, ht⟩ := exec_next i s
  rcases exec_cases ht with ⟨c, hc, hc8, rfl⟩ | ⟨a, rfl, ha, -, -⟩ | ⟨hgood, -⟩
  · exact ⟨c, hc, hc8, ht⟩
  · obtain rfl : b = a := List.mem_singleton.1 hb
    exact absurd ha (Nat.not_lt.2 h8)
  · exact absurd (hgood b hb) (Nat.not_lt.2 h8)

/-- With every register operand in range the one fault a meaning can take is CALL's `OutOfBounds`. -/
theorem exec_fault_ne_invalidRegister {i : Instr} {s t : State} (hgood : ∀ b ∈ i.registerOperands, b.toNat < 8)
    (hs : s.fault = none) (h : exec i s = .next t) (n : Nat) : t.fault ≠ some ⟨.invalidRegister, n⟩ := by
  rcases exec_cases h with ⟨b, hb, h8, -⟩ | ⟨a, -, -, -, rfl⟩ | ⟨-, hf⟩
  · exact absurd (hgood b hb) (Nat.not_lt.2 h8)
  · simp
  · simp [hf, hs]

/-- Settles O10: its two directions are the two lemmas above, both read off what a meaning can do (`exec_cases`). -/
theorem invalidRegisterRaises : Obligations.InvalidRegisterRaises :=
  ⟨fun _ s hbad => exec_raises_of_bad_register hbad s,
    fun _ _ _ n hgood hs h => exec_fault_ne_invalidRegister hgood hs h n⟩

/-! ## IllegalOpcode -/

/-- Settles O9: the lookup finds no operation, so the fetch fails with the opcode byte before it reads an operand
byte, which is why address 255 needs no case of its own. -/
theorem illegalOpcodeRaises : Obligations.IllegalOpcodeRaises := by
  intro m s hc hin hno
  have hlookup : m.lookup (s.mem.read s.pc) = none := OpcodeMap.lookup_none.2 hno
  exact stepWith_error hc (fetchWith_illegal hin hlookup)

end Sys2Proof.Machine
end

section
/-! PROOFS. Encoding and decoding (30_encoding.md): decode after encode (rules R60, R66, R67), encode after decode (R69), and
the count of illegal opcode bytes (R68). -/

namespace Sys2Proof

/-! ## Decoding an encoding -/

/-- An encoding is the opcode byte of its operation followed by its operand bytes. -/
theorem encodeWith_eq_cons (m : OpcodeMap) (i : Instr) : encodeWith m i = m.byteOf i.op :: i.operands := by
  obtain ⟨henc, -, -⟩ := Laws.EncodingShape.all i
  exact henc m

/-- The operand decoder takes back the operand bytes of each instruction and leaves the rest. -/
theorem decodeOperands_operands (i : Instr) (rest : List Byte) :
    decodeOperands i.op (i.operands ++ rest) = .ok (i, rest) := by
  cases i <;> rfl

/-- Settles O3: distinct bytes let the lookup find the operation of the opcode byte, and the operand decoder then takes
back the operand bytes. -/
theorem decodeOfEncodeIsTheInstruction : Obligations.DecodeOfEncodeIsTheInstruction := by
  intro m hm i rest
  calc decodeWith m (encodeWith m i ++ rest)
      = decodeWith m (m.byteOf i.op :: (i.operands ++ rest)) := by rw [encodeWith_eq_cons, List.cons_append]
    _ = decodeOperands i.op (i.operands ++ rest) := decodeWith_lookup (OpcodeMap.lookup_byteOf hm i.op) _
    _ = .ok (i, rest) := decodeOperands_operands i rest

/-! ## Encoding what was decoded -/

theorem takeOne_ok {f : Byte → Instr} {bs rest : List Byte} {i : Instr} (h : takeOne f bs = .ok (i, rest)) :
    ∃ a, i = f a ∧ bs = a :: rest := by
  cases bs with
  | nil => cases h
  | cons a bs => cases h; exact ⟨a, rfl, rfl⟩

theorem takeTwo_ok {f : Byte → Byte → Instr} {bs rest : List Byte} {i : Instr} (h : takeTwo f bs = .ok (i, rest)) :
    ∃ a b, i = f a b ∧ bs = a :: b :: rest := by
  rcases bs with _ | ⟨a, _ | ⟨b, bs⟩⟩
  · cases h
  · cases h
  · cases h; exact ⟨a, b, rfl, rfl⟩

/-- What the operand decoder answers is of the operation asked for, and its operand bytes are those taken.  The cases go
by the number of operand bytes. -/
theorem decodeOperands_ok {o : Op} {bs rest : List Byte} {i : Instr} (h : decodeOperands o bs = .ok (i, rest)) :
    i.op = o ∧ bs = i.operands ++ rest := by
  cases o with
  | hlt | ret => cases h; exact ⟨rfl, rfl⟩
  | prn | push | pop | call => obtain ⟨a, rfl, rfl⟩ := takeOne_ok h; exact ⟨rfl, rfl⟩
  | ldi | st | mul | add => obtain ⟨a, b, rfl, rfl⟩ := takeTwo_ok h; exact ⟨rfl, rfl⟩

/-- What decodes begins with an opcode byte, which the lookup finds, and goes on with operand bytes. -/
theorem decodeWith_ok {m : OpcodeMap} {bs rest : List Byte} {i : Instr} (h : decodeWith m bs = .ok (i, rest)) :
    ∃ b tail o, bs = b :: tail ∧ m.lookup b = some o ∧ decodeOperands o tail = .ok (i, rest) := by
  cases bs with
  | nil => cases h
  | cons b tail =>
    rcases hl : m.lookup b with _ | o
    · rw [decodeWith_illegal hl] at h; cases h
    · exact ⟨b, tail, o, rfl, hl, by rwa [decodeWith_lookup hl] at h⟩

/-- Settles O4: the byte looked up is the one the map gives the operation found, and the operand decoder skips no byte. -/
theorem decodedBytesAreTheEncoding : Obligations.DecodedBytesAreTheEncoding := by
  intro m bs rest i h
  obtain ⟨b, tail, o, rfl, hl, hops⟩ := decodeWith_ok h
  obtain ⟨rfl, rfl⟩ := decodeOperands_ok hops
  rw [encodeWith_eq_cons, OpcodeMap.lookup_some hl, List.cons_append]

/-! ## The opcode bytes -/

/-- The set of the opcode bytes of a map. -/
def OpcodeMap.bytes (m : OpcodeMap) : Finset (Fin 256) := ((Op.all.map m.byteOf).map BitVec.toFin).toFinset

theorem OpcodeMap.mem_bytes {m : OpcodeMap} {b : Fin 256} : b ∈ m.bytes ↔ ∃ o, m.byteOf o = BitVec.ofFin b := by
  have hfin (c : Byte) : c.toFin = b ↔ c = BitVec.ofFin b := BitVec.toFin_inj (x := c) (y := BitVec.ofFin b)
  simp only [OpcodeMap.bytes, List.mem_toFinset, List.map_map, List.mem_map, Op.mem_all, true_and, Function.comp_apply,
    hfin]

theorem OpcodeMap.card_bytes {m : OpcodeMap} (hm : m.Distinct) : m.bytes.card = 10 := by
  have hnodup : ((Op.all.map m.byteOf).map BitVec.toFin).Nodup := hm.map fun _ _ => BitVec.toFin_inj.1
  rw [OpcodeMap.bytes, List.toFinset_card_of_nodup hnodup]
  rfl

/-- Settles O5: the bytes that select no operation are the complement of the ten opcode bytes. -/
theorem illegalOpcodeBytesAre246 : Obligations.IllegalOpcodeBytesAre246 := by
  intro m hm
  have hcompl : ((Finset.univ : Finset (Fin 256)).filter fun b => m.lookup (BitVec.ofFin b) = none) = m.bytesᶜ := by
    ext b
    rw [Finset.mem_compl, OpcodeMap.mem_bytes, Finset.mem_filter_univ, OpcodeMap.lookup_none, not_exists]
  rw [hcompl, Finset.card_compl, OpcodeMap.card_bytes hm, Fintype.card_fin]
  rfl

/-! ## The default map -/

/-- Settles O1 by comparing the ten bytes. -/
theorem defaultOpcodeBytesAreDistinct : Obligations.DefaultOpcodeBytesAreDistinct := by
  unfold Obligations.DefaultOpcodeBytesAreDistinct
  decide

/-- Settles O2: each word is the encoding of its instruction followed by the bytes left, so it decodes as O3 says. -/
theorem writtenOutWordsDecode : Obligations.WrittenOutWordsDecode := by
  have hdecode := decodeOfEncodeIsTheInstruction opcodeMap defaultOpcodeBytesAreDistinct
  exact ⟨hdecode .hlt [], hdecode (.ldi 3 0xFF) [0x99], hdecode (.st 6 5) [], hdecode (.prn 7) [], hdecode (.mul 1 2) [],
    hdecode (.add 2 1) [], hdecode (.push 4) [], hdecode (.pop 2) [], hdecode (.call 1) [], hdecode .ret []⟩

end Sys2Proof
end

section
/-! PROOFS. What a step can do, once: a completed step of an operation is one of the ten of `Completes`, any other
takes a fault.  Then what follows about single steps (40_fetch_dispatch.md rules R80 to R90, 60_exceptions.md rules R147
and R148). -/

namespace Sys2Proof

/-- The register operands of an operation's instruction, among its operand bytes `a` and `b`. -/
theorem Op.instr_registerOperands (o : Op) (a b : Byte) :
    (o.instr a b).registerOperands =
      (if 1 ≤ o.operandCount then [a] else []) ++ if o.secondIsRegister then [b] else [] := by
  cases o <;> rfl

theorem Op.operandCount_of_secondIsRegister {o : Op} (h : o.secondIsRegister) : 1 ≤ o.operandCount := by
  cases o with
  | st | mul | add => decide
  | hlt | ldi | prn | push | pop | call | ret => cases h

/-- An instruction is its operation's, with its own operand bytes. -/
theorem Op.instr_of_operands {i : Instr} {a b : Byte} (ha : ∀ h : 0 < i.operands.length, a = i.operands[0])
    (hb : ∀ h : 1 < i.operands.length, b = i.operands[1]) : i.op.instr a b = i := by
  cases i with
  | hlt | ret => rfl
  | prn | push | pop | call => obtain rfl := ha Nat.one_pos; rfl
  | ldi | st | mul | add => obtain rfl := ha Nat.two_pos; obtain rfl := hb Nat.one_lt_two; rfl

end Sys2Proof

namespace Sys2Proof.Machine

/-! ## Completed steps -/

/-- What completing an operation with operand bytes `a` and `b` makes of the state `s`: which registers the bytes name, and
the state left. -/
inductive Completes (s : State) (a b : Byte) : Op → State → Prop
  | hlt : Completes s a b .hlt (s.halt.advance Config.hltPcAdvance)
  | ldi (r : RegIdx) (ha : a.toNat = r.val) : Completes s a b .ldi ((s.setReg r b).advance 3)
  | st (r q : RegIdx) (ha : a.toNat = r.val) (hb : b.toNat = q.val) :
      Completes s a b .st ((s.setByte (s.reg r).toNat (s.reg q)).advance 3)
  | prn (r : RegIdx) (ha : a.toNat = r.val) : Completes s a b .prn ((s.emit (s.reg r)).advance 2)
  | mul (r q : RegIdx) (ha : a.toNat = r.val) (hb : b.toNat = q.val) :
      Completes s a b .mul ((s.setReg r (mulWrap (s.reg r) (s.reg q))).advance 3)
  | add (r q : RegIdx) (ha : a.toNat = r.val) (hb : b.toNat = q.val) :
      Completes s a b .add ((s.setReg r (addWrap (s.reg r) (s.reg q))).advance 3)
  | push (r : RegIdx) (ha : a.toNat = r.val) :
      Completes s a b .push ((s.decSp.setByte (decWrap s.sp).toNat (s.decSp.reg r)).advance 2)
  | pop (r : RegIdx) (ha : a.toNat = r.val) :
      Completes s a b .pop ((s.setReg r (s.mem.read s.sp.toNat)).incSp.advance 2)
  | call (r : RegIdx) (ha : a.toNat = r.val) (hpc : s.pc + 2 ≤ 255) :
      Completes s a b .call
        ((s.decSp.setByte (decWrap s.sp).toNat (wrap8 (s.pc + 2))).setPc (s.decSp.reg r).toNat)
  | ret : Completes s a b .ret ((s.setPc (s.mem.read s.sp.toNat).toNat).incSp)

/-- A meaning completes or takes a fault.  The cases go by the checks the meaning makes: none, of one register operand,
of two, and CALL's of the return address. -/
theorem exec_completes_or_raises {o : Op} {a b : Byte} {s t : State} (h : exec (o.instr a b) s = .next t) :
    Completes s a b o t ∨ ∃ r, t = raise r s := by
  cases o with
  | hlt => cases h; exact .inl .hlt
  | ret =>
    simp only [Op.instr, exec, execRet_eq] at h
    cases h; exact .inl .ret
  | ldi | prn | push | pop =>
    simp only [Op.instr, exec, execLdi_eq, execPrn_eq, execPush_eq, execPop_eq] at h
    split at h
    · cases h; left; constructor; rfl
    · cases h; exact .inr ⟨_, rfl⟩
  | st | mul | add =>
    simp only [Op.instr, exec, execSt_eq, execMul_eq, execAdd_eq, execArith_eq] at h
    split at h
    · split at h
      · cases h; left; constructor <;> rfl
      · cases h; exact .inr ⟨_, rfl⟩
    · cases h; exact .inr ⟨_, rfl⟩
  | call =>
    simp only [Op.instr, exec, execCall_eq] at h
    split at h
    · split at h
      · next hpc => cases h; exact .inl (.call _ rfl hpc)
      · cases h; exact .inr ⟨_, rfl⟩
    · cases h; exact .inr ⟨_, rfl⟩

/-- A step that answers a next state takes a fault, or completes the operation of the opcode byte, whose bytes all lie
inside memory. -/
theorem stepWith_completes_or_raises {m : OpcodeMap} {s t : State} (h : stepWith m s = .next t) :
    s.canStep ∧
      ((∃ r, t = raise r s) ∨
        ∃ o, s.pc + o.operandCount < 256 ∧ s.mem.read s.pc = m.byteOf o ∧
          Completes s (s.mem.read (s.pc + 1)) (s.mem.read (s.pc + 2)) o t) := by
  obtain ⟨hc, ⟨r, rfl⟩ | ⟨o, hpc, ho, he⟩⟩ := stepWith_cases h
  · exact ⟨hc, .inl ⟨r, rfl⟩⟩
  rcases exec_completes_or_raises he with hcompl | hr
  · exact ⟨hc, .inr ⟨o, hpc, ho.symm, hcompl⟩⟩
  · exact ⟨hc, .inl hr⟩

/-! ## What completing leaves and changes -/

namespace Completes

variable {s t : State} {a b : Byte} {o : Op}

theorem fault_eq (h : Completes s a b o t) : t.fault = s.fault := by cases h <;> rfl

/-- Only HLT changes the run-state. -/
theorem run_eq (h : Completes s a b o t) : t.run = if o = .hlt then .halted else s.run := by cases h <;> rfl

/-- What lies inside memory ends at 256 at the latest, and CALL and RET leave a byte. -/
theorem pc_le (h : Completes s a b o t) (hpc : s.pc + o.operandCount < 256) : t.pc ≤ 256 := by
  cases h with
  | hlt | ldi | st | prn | mul | add | push | pop =>
    simp only [State.advance_pc, State.halt_pc, State.setReg_pc, State.setByte_pc, State.emit_pc, State.decSp_pc,
      State.incSp_pc, Op.operandCount, Config.hltPcAdvance] at hpc ⊢
    omega
  | call | ret => exact Nat.le_of_lt (byte_toNat_lt _)

/-- The operations that write memory, and where. -/
theorem mem_read_ne (h : Completes s a b o t) (hw : s.mem.wf) {x : Nat} (hx : t.mem.read x ≠ s.mem.read x) :
    (o = .st ∧ ∃ r : RegIdx, a.toNat = r.val ∧ x = (s.reg r).toNat) ∨
      ((o = .push ∨ o = .call) ∧ x = (s.sp - 1).toNat) := by
  cases h with
  | hlt | ldi | prn | mul | add | pop | ret => exact absurd rfl hx
  | st r q ha hb => exact .inl ⟨rfl, r, ha, by_contra fun hne => hx (Memory.read_write_ne hw hne _)⟩
  | push | call =>
    rw [← decWrap_eq]
    exact .inr ⟨by simp, by_contra fun hne => hx (Memory.read_write_ne hw hne _)⟩

/-- The operations that write a register, and which. -/
theorem reg_ne (h : Completes s a b o t) {q : RegIdx} (hq : t.reg q ≠ s.reg q) :
    (o ∈ [Op.ldi, .mul, .add, .pop] ∧ a.toNat = q.val) ∨ (o ∈ [Op.push, .pop, .call, .ret] ∧ q = 7) := by
  cases h with
  | hlt | st | prn => exact absurd rfl hq
  | ldi r ha | mul r _ ha | add r _ ha =>
    obtain rfl : q = r := by_contra fun hne => hq (State.setReg_reg_ne _ _ _ hne)
    exact .inl ⟨by decide, ha⟩
  | push | call | ret =>
    exact .inr ⟨by decide, by_contra fun hne => hq (State.setReg_reg_ne _ _ _ hne)⟩
  | pop r ha =>
    by_cases hr : q = r
    · exact .inl ⟨by decide, hr ▸ ha⟩
    · refine .inr ⟨by decide, by_contra fun hne => hq ?_⟩
      rw [State.advance_reg, State.incSp_reg, if_neg hne, State.setReg_reg_ne _ _ _ hr]

/-- Only PRN appends to the output record. -/
theorem out_eq (h : Completes s a b o t) :
    t.out = s.out ∨ (o = .prn ∧ ∃ r : RegIdx, a.toNat = r.val ∧ t.out = s.out ++ [s.reg r]) := by
  cases h with
  | prn r ha => exact .inr ⟨rfl, r, ha, rfl⟩
  | hlt | ldi | st | mul | add | push | pop | call | ret => exact .inl rfl

end Completes

/-! ## The step and the instruction fetched -/

/-- Settles O6: bytes that decode are what the fetch answers, and the step executes that. -/
theorem stepRunsTheDecodedInstruction : Obligations.StepRunsTheDecodedInstruction := by
  refine ⟨fun m s i rest hc hd => ?_, fun _ => rfl⟩
  have hfetch : fetchWith m s = .ok i := by simp only [fetchWith, hd]
  exact stepWith_ok hc hfetch

/-- Settles O7: byte 0 of the encoding is the opcode byte the lookup finds, the others are the operand bytes the fetch
takes. -/
theorem stepRunsTheInstructionInMemory : Obligations.StepRunsTheInstructionInMemory := by
  intro m hm s i hc hlen hbytes
  obtain ⟨-, hcount, -⟩ := Laws.EncodingShape.all i
  simp only [encodeWith_eq_cons, List.length_cons] at hlen hbytes
  have hopcode : s.mem.read s.pc = m.byteOf i.op := hbytes 0 (Nat.succ_pos _)
  have hoperand (k : Nat) (hk : k < i.operands.length) : s.mem.read (s.pc + (k + 1)) = i.operands[k] :=
    hbytes (k + 1) (Nat.succ_lt_succ hk)
  obtain ⟨-, hsteps⟩ := stepWith_stepsAs hm i.op hc
  obtain ⟨-, -, hcomplete⟩ := hsteps (by omega) hopcode
  calc stepWith m s
      = exec (i.op.instr (s.mem.read (s.pc + 1)) (s.mem.read (s.pc + 2))) s := hcomplete (by omega)
    _ = exec i s := by rw [Op.instr_of_operands (hoperand 0) (hoperand 1)]

/-- A machine that can step answers a next state: with the fault of the fetch, or as the meaning does. -/
theorem stepWith_next_of_canStep (m : OpcodeMap) {s : State} (hc : s.canStep) : ∃ t, stepWith m s = .next t := by
  rcases hf : fetchWith m s with r | i
  · exact ⟨_, stepWith_error hc hf⟩
  · obtain ⟨t, ht⟩ := exec_next i s
    exact ⟨t, (stepWith_ok hc hf).trans ht⟩

/-- Settles O12: what completes leaves the fault record, which was empty, and anything else is `raise`. -/
theorem aStepCompletesOrChangesOnlyTheFaultRecord : Obligations.AStepCompletesOrChangesOnlyTheFaultRecord := by
  intro m s hc
  obtain ⟨t, ht⟩ := stepWith_next_of_canStep m hc
  refine ⟨t, ht, ?_⟩
  obtain ⟨-, ⟨r, rfl⟩ | ⟨o, -, -, hcompl⟩⟩ := stepWith_completes_or_raises ht
  · exact .inr ⟨r, rfl⟩
  · exact .inl (hcompl.fault_eq.trans hc.2)

/-! ## The order of the faults -/

/-- With legal register bytes, and a return address that fits where it is a CALL, a meaning takes no fault. -/
theorem exec_completes {i : Instr} {s : State} (hs : s.fault = none) (hregs : ∀ b ∈ i.registerOperands, b.toNat < 8)
    (hcall : i.op = .call → s.pc < 254) : ∃ t, exec i s = .next t ∧ t.fault = none := by
  obtain ⟨t, ht⟩ := exec_next i s
  refine ⟨t, ht, ?_⟩
  rcases exec_cases ht with ⟨b, hb, h8, -⟩ | ⟨a, rfl, -, hpc, -⟩ | ⟨-, hf⟩
  · exact absurd (hregs b hb) (Nat.not_lt.2 h8)
  · exact absurd (hcall rfl) (Nat.not_lt.2 hpc)
  · exact hf.trans hs

theorem exec_call_outOfBounds {a : Byte} {s : State} (ha : a.toNat < 8) (hpc : 254 ≤ s.pc) :
    Raises (exec (.call a) s) s .outOfBounds (s.pc + 2) :=
  (execCall_eq a s).trans ((dif_pos ha).trans (if_neg (by omega)))

/-- Settles O11: the fetch makes the first four checks (`stepWith_stepsAs`), the meaning the rest, of the register operands
`Op.instr_registerOperands` gives and of the return address. -/
theorem faultsAreRaisedInOrder : Obligations.FaultsAreRaisedInOrder := by
  intro m hm s hc
  obtain ⟨hout, -⟩ := opcodeIsFetchedAtThePc m s hc
  refine ⟨hout, illegalOpcodeRaises m s hc, fun o hin hop => ?_⟩
  obtain ⟨-, hsteps⟩ := stepWith_stepsAs hm o hc
  obtain ⟨hnoFirst, hnoSecond, hcomplete⟩ := hsteps hin hop.symm
  refine ⟨hnoFirst, hnoSecond, fun hfits => ?_⟩
  rw [hcomplete hfits]
  have hregs := o.instr_registerOperands (s.mem.read (s.pc + 1)) (s.mem.read (s.pc + 2))
  refine ⟨fun h1 ha => ?first, fun h2 ha hb => ?second, fun ho ha hpc => ?returnAddress, fun ha hb hret => ?completes⟩
  case first =>
    rw [if_pos h1] at hregs
    exact exec_raises_first hregs ha s
  case second =>
    rw [if_pos (Op.operandCount_of_secondIsRegister h2), if_pos h2] at hregs
    exact exec_raises_second hregs ha hb s
  case returnAddress =>
    subst ho
    have hraise := exec_call_outOfBounds ha (Nat.le_of_eq hpc.symm)
    rwa [show s.pc + 2 = 256 by omega] at hraise
  case completes =>
    refine exec_completes hc.2 (fun c hmem => ?_) fun ho => ?_
    · rw [hregs, List.mem_append, List.mem_ite_nil_right, List.mem_ite_nil_right] at hmem
      simp only [List.mem_singleton] at hmem
      rcases hmem with ⟨h1, rfl⟩ | ⟨h2, rfl⟩
      · exact ha h1
      · exact hb h2
    · obtain rfl : o = .call := (Op.instr_op o _ _).symm.trans ho
      have hne : s.pc ≠ 254 := fun hpc => hret ⟨rfl, hpc⟩
      simp only [Op.operandCount] at hfits
      omega

/-! ## What a step changes -/

/-- Settles O14: of what completes HLT alone leaves HALTED, and a fault leaves RUNNING; at HLT's byte, which distinct bytes
give to no other operation, the step is HLT's. -/
theorem hltIsTheOnlyWayToHalted : Obligations.HltIsTheOnlyWayToHalted := by
  intro m hm s t h
  obtain ⟨hc, hdone⟩ := stepWith_completes_or_raises h
  refine ⟨hc.1, fun hrun => ?halted, fun ⟨hin, hop⟩ => ?atHlt⟩
  case halted =>
    rcases hdone with ⟨r, rfl⟩ | ⟨o, hpc, hop, hcompl⟩
    · exact absurd (hc.1.symm.trans hrun) (by decide)
    · have ho : o = .hlt := by
        by_contra hne
        rw [hcompl.run_eq, if_neg hne, hc.1] at hrun
        cases hrun
      exact ⟨by omega, by rw [hop, ho]; rfl⟩
  case atHlt =>
    obtain ⟨-, hsteps⟩ := stepWith_stepsAs hm .hlt hc
    obtain ⟨-, -, hcomplete⟩ := hsteps hin hop
    cases h.symm.trans (hcomplete hin)
    rfl

/-- Settles O16: a fault leaves memory, and of the operations that complete three write it, each at its one address. -/
theorem onlyStPushCallWriteMemory : Obligations.OnlyStPushCallWriteMemory := by
  intro m _ s t hw h x hx
  obtain ⟨hc, ⟨r, rfl⟩ | ⟨o, hpc, hop, hcompl⟩⟩ := stepWith_completes_or_raises h
  · exact absurd rfl hx
  refine ⟨hcompl.fault_eq.trans hc.2, by omega, ?_⟩
  rw [hop]
  rcases hcompl.mem_read_ne hw hx with ⟨rfl, hr⟩ | ⟨rfl | rfl, hsp⟩
  · exact .inl ⟨rfl, hr⟩
  · exact .inr ⟨.inl rfl, hsp⟩
  · exact .inr ⟨.inr rfl, hsp⟩

/-- Settles O17: a fault leaves the registers, and the table is that of the operations that complete. -/
theorem registersAreWrittenAsTabled : Obligations.RegistersAreWrittenAsTabled := by
  intro m _ s t h q hq
  obtain ⟨-, ⟨r, rfl⟩ | ⟨o, hpc, hop, hcompl⟩⟩ := stepWith_completes_or_raises h
  · exact absurd rfl hq
  refine ⟨by omega, ?_⟩
  rw [hop]
  rcases hcompl.reg_ne hq with ⟨hmem, ha⟩ | ⟨hmem, h7⟩
  · exact .inl ⟨List.mem_map_of_mem hmem, ha⟩
  · exact .inr ⟨List.mem_map_of_mem hmem, h7⟩

/-- Settles O18: a fault leaves the output record, and of the operations that complete PRN alone appends to it. -/
theorem onlyPrnEmits : Obligations.OnlyPrnEmits := by
  intro m _ s t h
  obtain ⟨-, ⟨r, rfl⟩ | ⟨o, hpc, hop, hcompl⟩⟩ := stepWith_completes_or_raises h
  · exact .inl rfl
  rcases hcompl.out_eq with hout | ⟨rfl, hr⟩
  · exact .inl hout
  · exact .inr ⟨by omega, hop, hr⟩

end Sys2Proof.Machine
end

section
/-! PROOFS. The output record (10_state.md rule R35), the machine that takes no step (40_fetch_dispatch.md rules R88 to R91), and
the run loop. -/

namespace Sys2Proof.Machine

/-! ## The output record is read by no step -/

/-- The state with more history in front of its output record. -/
def State.outAfter (before : List Byte) (s : State) : State := { s with out := before ++ s.out }

@[simp] theorem State.outAfter_reg (before : List Byte) (s : State) (r : RegIdx) : (s.outAfter before).reg r = s.reg r := rfl

/-- The one update that touches the output record appends at its other end. -/
theorem State.outAfter_emit (before : List Byte) (s : State) (v : Byte) :
    (s.outAfter before).emit v = (s.emit v).outAfter before := by
  simp only [State.outAfter, State.emit, List.append_assoc]

/-- An outcome with more history in front of the output record of its next state, if it answers one. -/
def outcomeAfter (before : List Byte) : Host.Outcome State Fault Refusal → Host.Outcome State Fault Refusal
  | .next t => .next (t.outAfter before)
  | .fault f => .fault f
  | .refused r => .refused r

/-- No meaning reads the output record: it answers the same with more history in front. -/
theorem exec_outAfter (before : List Byte) (i : Instr) (s : State) :
    exec i (s.outAfter before) = outcomeAfter before (exec i s) := by
  cases i with
  | hlt => rfl
  | ret => simp only [exec, execRet_eq]; rfl
  | prn =>
    simp only [exec, execPrn_eq, State.outAfter_reg, State.outAfter_emit]
    split <;> rfl
  | ldi | push | pop =>
    simp only [exec, execLdi_eq, execPush_eq, execPop_eq]
    split <;> rfl
  | st | mul | add =>
    simp only [exec, execSt_eq, execMul_eq, execAdd_eq, execArith_eq]
    split
    · split <;> rfl
    · rfl
  | call =>
    simp only [exec, execCall_eq]
    split
    · by_cases hpc : s.pc + 2 ≤ 255
      · refine (if_pos hpc).trans ?_; rw [if_pos hpc]; rfl
      · refine (if_neg hpc).trans ?_; rw [if_neg hpc]; rfl
    · rfl

/-- Nor does the test whether a step is enabled, nor the fetch. -/
theorem stepWith_outAfter (m : OpcodeMap) (before : List Byte) (s : State) :
    stepWith m (s.outAfter before) = outcomeAfter before (stepWith m s) := by
  have hstopped : stopped (s.outAfter before) = stopped s := rfl
  have hfetch : fetchWith m (s.outAfter before) = fetchWith m s := rfl
  unfold stepWith
  rw [hstopped, hfetch]
  cases stopped s with
  | some f => rfl
  | none =>
    cases fetchWith m s with
    | error r => rfl
    | ok i => exact exec_outAfter before i s

/-- Settles O19: both clauses are `stepWith_outAfter`, at a next state and at a stop. -/
theorem outputInfluencesNoStep : Obligations.OutputInfluencesNoStep := by
  intro m s before
  have hafter {o : Host.Outcome State Fault Refusal} (h : stepWith m s = o) :
      stepWith m (s.outAfter before) = outcomeAfter before o := h ▸ stepWith_outAfter m before s
  exact ⟨fun _ h => hafter h, fun _ h => hafter h⟩

/-! ## The stopped machine -/

theorem stepWith_stopped (m : OpcodeMap) {s : State} {f : Fault} (h : stopped s = some f) : stepWith m s = .fault f := by
  simp only [stepWith, h]

/-- A step is enabled exactly where it answers a next state. -/
theorem stepWith_next_iff {m : OpcodeMap} {s : State} : (∃ t, stepWith m s = .next t) ↔ s.canStep := by
  refine ⟨fun ⟨t, h⟩ => ?_, stepWith_next_of_canStep m⟩
  obtain ⟨hc, -⟩ := stepWith_next h
  exact hc

theorem runWith_zero (m : OpcodeMap) (s : State) : runWith m 0 s = s := rfl

theorem runWith_succ {m : OpcodeMap} {s t : State} (h : stepWith m s = .next t) (n : Nat) :
    runWith m (n + 1) s = runWith m n t := by
  simp only [runWith, h]

/-- A run on a machine that takes no step leaves it. -/
theorem runWith_of_not_canStep {m : OpcodeMap} {s : State} (hc : ¬ s.canStep) (n : Nat) : runWith m n s = s := by
  cases n with
  | zero => rfl
  | succ n =>
    obtain ⟨f, hf⟩ := Option.ne_none_iff_exists'.1 (mt stopped_none.1 hc)
    simp only [runWith, stepWith_stopped m hf]

/-- Settles O13: the two stops by name, and both directions and the run by the lemmas above. -/
theorem aStoppedMachineTakesNoStep : Obligations.AStoppedMachineTakesNoStep := by
  intro m s
  refine ⟨fun r hf => ?faulted, fun hf hr => ?halted, stepWith_next_iff, fun hc => runWith_of_not_canStep hc⟩
  case faulted => exact stepWith_stopped m (stopped_of_fault hf)
  case halted => exact stepWith_stopped m (stopped_of_halted hf hr)

/-! ## Runs -/

/-- A run of `k + n` steps is a run of `k` and then one of `n`, by induction on `k`; where a step is not enabled, all three
runs leave the state. -/
theorem runWith_add (m : OpcodeMap) (k n : Nat) (s : State) : runWith m n (runWith m k s) = runWith m (k + n) s := by
  induction k generalizing s with
  | zero => rw [runWith_zero, Nat.zero_add]
  | succ k ih =>
    by_cases hc : s.canStep
    · obtain ⟨t, ht⟩ := stepWith_next_of_canStep m hc
      rw [Nat.succ_add, runWith_succ ht, runWith_succ ht, ih]
    · simp only [runWith_of_not_canStep hc]

/-- Settles O46: the two equations of the run loop and `runWith_add`. -/
theorem aStoppedRunContinues : Obligations.AStoppedRunContinues := fun m =>
  ⟨runWith_zero m, fun n _ _ h => runWith_succ h n, runWith_add m⟩

/-- A step after which no step is enabled was HLT's or took a fault. -/
theorem stepWith_last {m : OpcodeMap} (hm : m.Distinct) {s t : State} (h : stepWith m s = .next t) (ht : ¬ t.canStep) :
    (t.succeeded ∧ s.mem.read s.pc = m.hlt) ∨ (t.failed ∧ ∃ r, t = { s with fault := some r }) := by
  obtain ⟨hc, ⟨r, rfl⟩ | ⟨o, -, -, hcompl⟩⟩ := stepWith_completes_or_raises h
  · exact .inr ⟨Option.some_ne_none r, r, rfl⟩
  · have hfault : t.fault = none := hcompl.fault_eq.trans hc.2
    have hrun : t.run = .halted := by
      cases hr : t.run with
      | running => exact absurd ⟨hr, hfault⟩ ht
      | halted => rfl
    obtain ⟨-, hiff⟩ := hltIsTheOnlyWayToHalted m hm s t h
    obtain ⟨-, hop⟩ := hiff.1 hrun
    exact .inl ⟨⟨hrun, hfault⟩, hop⟩

/-- Settles O48, by induction on the length of the run: its first step was the last one taken, or the last is that of the
run that goes on from the state it left. -/
theorem aRunEndsByHltOrByAFault : Obligations.ARunEndsByHltOrByAFault := by
  intro m hm n
  induction n with
  | zero => exact fun s hc hend => absurd hc hend
  | succ n ih =>
    intro s hc hend
    obtain ⟨t, ht⟩ := stepWith_next_of_canStep m hc
    rw [runWith_succ ht] at hend ⊢
    by_cases htc : t.canStep
    · obtain ⟨k, hk, hlast⟩ := ih t htc hend
      exact ⟨k + 1, Nat.succ_lt_succ hk, by rwa [runWith_succ ht]⟩
    · rw [runWith_of_not_canStep htc]
      exact ⟨0, Nat.succ_pos n, hc, ht, stepWith_last hm ht htc⟩

end Sys2Proof.Machine
end

section
/-! PROOFS. Reset, load and the other host actions (70_reset_and_hazards.md), and the invariant that steps and host actions
keep (10_state.md, 20_memory.md rule R40, 60_exceptions.md rule R140). -/

namespace Sys2Proof.Machine

/-! ## The records a fault can leave -/

theorem FaultRecord.legal_outOfBounds (m : OpcodeMap) : FaultRecord.legal m ⟨.outOfBounds, 256⟩ = true := rfl

theorem FaultRecord.legal_invalidRegister (m : OpcodeMap) {b : Byte} (h : 8 ≤ b.toNat) :
    FaultRecord.legal m ⟨.invalidRegister, b.toNat⟩ = true :=
  decide_eq_true ⟨h, Nat.le_of_lt_succ (byte_toNat_lt b)⟩

theorem FaultRecord.legal_illegalOpcode {m : OpcodeMap} {b : Byte} (h : m.lookup b = none) :
    FaultRecord.legal m ⟨.illegalOpcode, b.toNat⟩ = true := by
  have hle : b.toNat ≤ 255 := Nat.le_of_lt_succ (byte_toNat_lt b)
  simp [FaultRecord.legal, hle, h]

/-- From a program counter of at most 256 the byte that the fetch finds beyond memory is the one at 256. -/
theorem fetchWith_error_legal {m : OpcodeMap} {s : State} {r : FaultRecord} (hpc : s.pc ≤ 256)
    (h : fetchWith m s = .error r) : r.legal m = true := by
  rcases fetchWith_cases m s with ⟨hout, e⟩ | ⟨-, hl, e⟩ | ⟨o, -, -, ⟨-, hp, e⟩ | ⟨-, hp, e⟩ | ⟨-, e⟩⟩ <;>
    rw [h] at e <;> cases e
  · rw [Nat.le_antisymm hpc hout]; exact FaultRecord.legal_outOfBounds m
  · exact FaultRecord.legal_illegalOpcode hl
  · rw [hp]; exact FaultRecord.legal_outOfBounds m
  · rw [hp]; exact FaultRecord.legal_outOfBounds m

/-- An instruction fetched lies inside memory. -/
theorem fetchWith_ok_fits {m : OpcodeMap} {s : State} {i : Instr} (h : fetchWith m s = .ok i) :
    s.pc + i.op.operandCount < 256 := by
  rcases fetchWith_cases m s with ⟨-, e⟩ | ⟨-, -, e⟩ | ⟨o, -, -, ⟨-, -, e⟩ | ⟨-, -, e⟩ | ⟨hp, e⟩⟩ <;>
    rw [h] at e <;> cases e
  rwa [Op.instr_op]

/-- From a program counter of at most 256 a step leaves a fault record of R140, if any: the return address of a CALL that
lies inside memory is 256 where it does not fit. -/
theorem stepWith_fault_legal {m : OpcodeMap} {s t : State} (hpc : s.pc ≤ 256) (h : stepWith m s = .next t) :
    t.fault.all (FaultRecord.legal m) = true := by
  obtain ⟨hc, ⟨r, hf, rfl⟩ | ⟨i, hf, he⟩⟩ := stepWith_next h
  · exact fetchWith_error_legal hpc hf
  rcases exec_cases he with ⟨b, -, h8, rfl⟩ | ⟨a, rfl, -, h254, rfl⟩ | ⟨-, hfault⟩
  · exact FaultRecord.legal_invalidRegister m h8
  · have hfits : s.pc + 1 < 256 := fetchWith_ok_fits hf
    have h256 : s.pc + 2 = 256 := by omega
    rw [h256]
    exact FaultRecord.legal_outOfBounds m
  · rw [hfault, hc.2]; rfl

/-! ## Every step -/

/-- A step leaves the program counter where it was, with a fault, or at most at 256. -/
theorem stepWith_pc {m : OpcodeMap} {s t : State} (h : stepWith m s = .next t) :
    (t.fault ≠ none ∧ t.pc = s.pc) ∨ t.pc ≤ 256 := by
  obtain ⟨-, ⟨r, rfl⟩ | ⟨o, hpc, -, hcompl⟩⟩ := stepWith_completes_or_raises h
  · exact .inl ⟨Option.some_ne_none r, rfl⟩
  · exact .inr (hcompl.pc_le hpc)

theorem stepWith_wf {m : OpcodeMap} {s t : State} (hw : s.mem.wf) (h : stepWith m s = .next t) : t.mem.wf := by
  obtain ⟨-, ⟨r, -, rfl⟩ | ⟨i, -, he⟩⟩ := stepWith_next h
  · exact hw
  · exact exec_wf hw he

/-- A step that leaves HALTED leaves no fault: it completed, since a fault leaves RUNNING. -/
theorem stepWith_halted_fault {m : OpcodeMap} {s t : State} (h : stepWith m s = .next t) (hrun : t.run = .halted) :
    t.fault = none := by
  obtain ⟨hc, ⟨r, rfl⟩ | ⟨o, -, -, hcompl⟩⟩ := stepWith_completes_or_raises h
  · exact absurd (hc.1.symm.trans hrun) (by decide)
  · exact hcompl.fault_eq.trans hc.2

/-- A step keeps the invariant, under every opcode map. -/
theorem stepWith_inv {m : OpcodeMap} {s t : State} (hs : s.Inv m) (h : stepWith m s = .next t) : t.Inv m := by
  obtain ⟨hw, hpc, -, -⟩ := hs
  refine ⟨stepWith_wf hw h, ?_, stepWith_halted_fault h, stepWith_fault_legal hpc h⟩
  rcases stepWith_pc h with ⟨-, hsame⟩ | hle
  · rwa [hsame]
  · exact hle

/-- Settles O20: `step` is `stepWith` at the default map. -/
theorem everyStepKeepsTheInvariant : Obligations.EveryStepKeepsTheInvariant := fun _ _ => stepWith_inv

/-- Settles O49: a fault leaves the program counter, and 256 is below `PC_MAX`. -/
theorem thePcStaysInItsRange : Obligations.ThePcStaysInItsRange := by
  intro m s t hpc h
  rcases stepWith_pc h with ⟨hfault, hsame⟩ | hle
  · exact ⟨hsame ▸ hpc, fun hnone => absurd hnone hfault⟩
  · exact ⟨hle.trans (by decide), fun _ => hle⟩

/-! ## Reset -/

theorem State.resetWith_canStep (g w : Byte) : (State.resetWith g w).canStep := ⟨rfl, rfl⟩

theorem State.resetWith_inv (g w : Byte) (m : OpcodeMap) : (State.resetWith g w).Inv m :=
  ⟨Memory.filled_wf w, Nat.zero_le 256, fun _ => rfl, rfl⟩

/-- Settles O21: the memory of reset is in canonical form, and there is no fault. -/
theorem resetMeetsTheInvariant : Obligations.ResetMeetsTheInvariant :=
  ⟨State.resetWith_inv _ _ opcodeMap, fun p => State.resetWith_inv p.gprReset p.memReset p.opcodeMap⟩

/-- Settles O42 by the reset lemmas of State. -/
theorem resetLeavesTheStatedValues : Obligations.ResetLeavesTheStatedValues := fun g w =>
  ⟨State.resetWith_sp g w, State.resetWith_run g w, State.resetWith_fault g w, State.resetWith_out g w⟩

theorem State.resetWith_reg_ne (g w : Byte) {q : RegIdx} (hq : q ≠ 7) : (State.resetWith g w).reg q = g := by
  rw [State.resetWith_reg, if_neg hq]

/-- Settles O50: every byte reads as `MEM_RESET`, so the first step fetches that byte from address 0. -/
theorem resetLeavesTheParameters : Obligations.ResetLeavesTheParameters := by
  intro g w
  have hmem (a : Nat) (ha : a < 256) : (State.resetWith g w).mem.read a = w := Memory.read_filled w ha
  have hfirst : (State.resetWith g w).mem.read (State.resetWith g w).pc = w := hmem 0 (by decide)
  refine ⟨rfl, fun q hq => State.resetWith_reg_ne g w hq, hmem, fun m hno => ?_⟩
  have hraise := illegalOpcodeRaises m _ (State.resetWith_canStep g w) (by decide : 0 < 256)
  rw [hfirst] at hraise
  exact hraise hno

/-- Settles O43: the default map gives 0 to no operation, and the memory of reset lists no cell. -/
theorem resetLeavesTheDefaultValues : Obligations.ResetLeavesTheDefaultValues := by
  obtain ⟨hpc, hreg, -, hfirst⟩ := resetLeavesTheParameters Config.gprReset Config.memReset
  have hno (o : Op) : opcodeMap.byteOf o ≠ Config.memReset := by cases o <;> decide
  exact ⟨hpc, hreg, fun a => Memory.read_nil a, hfirst opcodeMap hno⟩

/-! ## Load -/

theorem load_of_le {bytes : List Byte} (h : bytes.length ≤ 256) (s : State) :
    load bytes s = .next { s with mem := s.mem.writeBytes 0 bytes } :=
  if_pos h

theorem load_of_gt {bytes : List Byte} (h : 256 < bytes.length) (s : State) :
    load bytes s = .refused (.loadTooLong bytes.length) :=
  if_neg (Nat.not_le.2 h)

theorem load_next {bytes : List Byte} {s t : State} (h : load bytes s = .next t) :
    t = { s with mem := s.mem.writeBytes 0 bytes } := by
  rcases Nat.lt_or_ge 256 bytes.length with hlong | hfits
  · rw [load_of_gt hlong] at h; cases h
  · rw [load_of_le hfits] at h; cases h; rfl

/-- In a canonical memory the bytes loaded stand from address 0. -/
theorem Memory.read_loaded {m : Memory} (hw : m.wf) {bytes : List Byte} (hlen : bytes.length ≤ 256) {i : Nat}
    (hi : i < bytes.length) : (m.writeBytes 0 bytes).read i = bytes[i] := by
  rw [Memory.read_writeBytes hw (by simpa using hlen), dif_pos ⟨Nat.zero_le i, hi⟩]
  rfl

/-- Bytes after those loaded read as before. -/
theorem Memory.read_after_loaded {m : Memory} (hw : m.wf) {bytes : List Byte} (hlen : bytes.length ≤ 256) {i : Nat}
    (hi : bytes.length ≤ i) : (m.writeBytes 0 bytes).read i = m.read i := by
  rw [Memory.read_writeBytes hw (by simpa using hlen), dif_neg fun h => absurd h.2 (Nat.not_lt.2 hi)]

/-- Settles O44: the state answered differs in memory alone, which reads as the two lemmas above say. -/
theorem loadPlacesTheBytes : Obligations.LoadPlacesTheBytes := by
  intro bytes s hw
  refine ⟨fun hlen => ⟨_, load_of_le hlen s, ?placed, ?after, rfl⟩, fun hlong => load_of_gt hlong s⟩
  case placed => exact fun i hi => Memory.read_loaded hw hlen hi
  case after => exact fun i hi => Memory.read_after_loaded hw hlen hi

/-- Settles O45: after the load the encoding stands in memory from address 0, where reset left the program counter. -/
theorem theLoadedProgramRunsFromItsFirstInstruction : Obligations.TheLoadedProgramRunsFromItsFirstInstruction := by
  intro p hm i rest hlen
  refine ⟨_, load_of_le hlen _, ?_⟩
  have hlen' : (encodeWith p.opcodeMap i).length ≤ 256 := by
    rw [List.length_append] at hlen; omega
  refine stepRunsTheInstructionInMemory p.opcodeMap hm _ i ⟨rfl, rfl⟩ ?fits fun k hk => ?bytes
  case fits => simpa [Config.pcReset] using hlen'
  case bytes =>
    have hread := Memory.read_loaded (Memory.filled_wf p.memReset) hlen
      (by rw [List.length_append]; omega : k < (encodeWith p.opcodeMap i ++ rest).length)
    simpa [Config.pcReset, List.getElem_append_left hk] using hread

/-! ## Host actions -/

theorem runWith_inv {m : OpcodeMap} {s : State} (hs : s.Inv m) (n : Nat) : (runWith m n s).Inv m := by
  induction n generalizing s with
  | zero => exact hs
  | succ n ih =>
    by_cases hc : s.canStep
    · obtain ⟨t, ht⟩ := stepWith_next_of_canStep m hc
      rw [runWith_succ ht]
      exact ih (stepWith_inv hs ht)
    · rwa [runWith_of_not_canStep hc]

theorem load_inv {m : OpcodeMap} {bytes : List Byte} {s t : State} (hs : s.Inv m) (h : load bytes s = .next t) :
    t.Inv m := by
  obtain ⟨hw, hrest⟩ := hs
  obtain rfl := load_next h
  exact ⟨Memory.writeBytes_wf hw 0 bytes, hrest⟩

/-- Settles O22: reset establishes the invariant, load touches memory alone, and a run is a number of steps. -/
theorem everyHostActionKeepsTheInvariant : Obligations.EveryHostActionKeepsTheInvariant := by
  intro p s t act hs h
  cases act with
  | reset => cases h; exact State.resetWith_inv _ _ _
  | load bytes => exact load_inv hs h
  | run n => cases h; exact runWith_inv hs n

/-- Settles O47: load touches memory alone and a run leaves a stopped machine; reset answers its own state. -/
theorem onlyResetLeavesAStop : Obligations.OnlyResetLeavesAStop := by
  refine ⟨fun p s t act hc hact h => ?_, fun p s => ⟨_, rfl, State.resetWith_canStep _ _, rfl⟩⟩
  cases act with
  | reset => exact absurd rfl hact
  | load bytes =>
    obtain rfl := load_next h
    exact ⟨rfl, rfl, rfl, fun _ => rfl, fun n hn => nomatch hn⟩
  | run n =>
    obtain rfl : runWith p.opcodeMap n s = t := Host.Outcome.next.inj h
    rw [runWith_of_not_canStep hc]
    exact ⟨rfl, rfl, rfl, fun _ => rfl, fun _ _ => rfl⟩

end Sys2Proof.Machine
end

section
/-! PROOFS. HLT and PRN (41_system_move_output.md rules R100 and R103), PUSH and POP (43_stack.md rules R120 and R121), CALL
and RET (44_call_return.md rules R130 to R133), and the two's-complement reading of ADD and MUL (42_alu.md rule R113). -/

namespace Sys2Proof.Machine

/-! ## HLT -/

theorem State.halt_advance_hltEffect (s : State) : HltEffect s (s.halt.advance Config.hltPcAdvance) where
  run := rfl
  pc := rfl
  regs _ := rfl
  mem _ := rfl
  fault := rfl
  out := rfl

/-- Settles O23: HLT makes no check, and its advance is 0. -/
theorem hltHalts : Obligations.HltHalts :=
  ⟨fun s => ⟨_, execHlt_eq s, s.halt_advance_hltEffect⟩, fun _ hm _ hc => stepWith_stepsAs hm .hlt hc⟩

/-! ## PRN -/

theorem exec_prn_of_lt {a : Byte} (h : a.toNat < 8) (s : State) :
    exec (.prn a) s = .next ((s.emit (s.reg ⟨a.toNat, h⟩)).advance 2) :=
  (execPrn_eq a s).trans (dif_pos h)

theorem State.emit_advance_prnEffect (s : State) (r : RegIdx) : PrnEffect r s ((s.emit (s.reg r)).advance 2) where
  out := rfl
  regs _ := rfl
  pc := rfl
  mem _ := rfl
  status := ⟨rfl, rfl⟩

/-- Settles O26: a legal register byte gives the one next state of `exec_prn_of_lt`; the faults and the fetch are those of
every operation. -/
theorem prnEmitsTheRegister : Obligations.PrnEmitsTheRegister := by
  refine ⟨fun a s h => ?completes, fun a s ha => ?badRegister, fun m hm s hc => ?steps⟩
  case completes => exact ⟨_, exec_prn_of_lt h s, s.emit_advance_prnEffect _⟩
  case badRegister => exact exec_raises_first (i := .prn a) rfl ha s
  case steps => exact stepWith_stepsAs hm .prn hc

/-! ## PUSH -/

/-- The byte PUSH stores: the register, read after the decrement of the stack pointer. -/
def State.pushed (s : State) (r : RegIdx) : Byte := if r = 7 then s.sp - 1 else s.reg r

theorem State.decSp_reg_eq_pushed (s : State) (r : RegIdx) : s.decSp.reg r = s.pushed r := by
  rw [State.decSp_reg, decWrap_eq, State.pushed]

theorem State.decSp_sp_eq (s : State) : s.decSp.sp = s.sp - 1 := by rw [State.decSp_sp, decWrap_eq]

theorem exec_push_of_lt {a : Byte} (h : a.toNat < 8) (s : State) :
    exec (.push a) s = .next ((s.decSp.setByte (s.sp - 1).toNat (s.pushed ⟨a.toNat, h⟩)).advance 2) := by
  rw [← State.decSp_reg_eq_pushed, ← decWrap_eq]
  exact (execPush_eq a s).trans (dif_pos h)

theorem State.setByte_advance_pushEffect {s : State} (hw : s.mem.wf) (r : RegIdx) :
    PushEffect r s ((s.decSp.setByte (s.sp - 1).toNat (s.pushed r)).advance 2) where
  sp := s.decSp_sp_eq
  stored := State.setByte_storedOnly (s := s.decSp) hw _ _
  regs _ hq := State.setReg_reg_ne s 7 _ hq
  pc := rfl
  status := ⟨rfl, rfl⟩
  out := rfl

theorem exec_push_completes {a : Byte} {s : State} (h : a.toNat < 8) (hw : s.mem.wf) :
    ∃ t, exec (.push a) s = .next t ∧ PushEffect ⟨a.toNat, h⟩ s t :=
  ⟨_, exec_push_of_lt h s, State.setByte_advance_pushEffect hw _⟩

/-- Settles O29: a legal register byte lets PUSH complete (`exec_push_completes`); the faults and the fetch are those of
every operation. -/
theorem pushStoresBelowTheStackPointer : Obligations.PushStoresBelowTheStackPointer := by
  refine ⟨fun a s h hw => ?completes, fun a s ha => ?badRegister, fun m hm s hc => ?steps⟩
  case completes => exact exec_push_completes h hw
  case badRegister => exact exec_raises_first (i := .push a) rfl ha s
  case steps => exact stepWith_stepsAs hm .push hc

/-! ## POP -/

theorem exec_pop_of_lt {a : Byte} (h : a.toNat < 8) (s : State) :
    exec (.pop a) s = .next ((s.setReg ⟨a.toNat, h⟩ (s.mem.read s.sp.toNat)).incSp.advance 2) :=
  (execPop_eq a s).trans (dif_pos h)

theorem State.incSp_sp_eq (s : State) : s.incSp.sp = s.sp + 1 := by rw [State.incSp_sp, incWrap_eq]

/-- The stack pointer after a write to a register is what was written, if the register is 7. -/
theorem State.setReg_sp (s : State) (r : RegIdx) (v : Byte) : (s.setReg r v).sp = if r = 7 then v else s.sp := by
  rw [State.sp_eq, State.setReg_reg]
  exact if_congr eq_comm rfl rfl

theorem State.setReg_incSp_popEffect (s : State) (r : RegIdx) :
    PopEffect r s ((s.setReg r (s.mem.read s.sp.toNat)).incSp.advance 2) where
  dest h7 := by rw [State.advance_reg, State.incSp_reg, if_neg h7, State.setReg_reg_same]
  sp := by rw [State.advance_sp, State.incSp_sp_eq, State.setReg_sp]
  regs q hq h7 := by rw [State.advance_reg, State.incSp_reg, if_neg h7, State.setReg_reg_ne _ _ _ hq]
  pc := rfl
  mem _ := rfl
  status := ⟨rfl, rfl⟩
  out := rfl

theorem exec_pop_completes {a : Byte} (h : a.toNat < 8) (s : State) :
    ∃ t, exec (.pop a) s = .next t ∧ PopEffect ⟨a.toNat, h⟩ s t :=
  ⟨_, exec_pop_of_lt h s, s.setReg_incSp_popEffect _⟩

/-- Settles O30: a legal register byte lets POP complete (`exec_pop_completes`); the faults and the fetch are those of
every operation. -/
theorem popLoadsTheTopOfStack : Obligations.PopLoadsTheTopOfStack := by
  refine ⟨fun a s h => ?completes, fun a s ha => ?badRegister, fun m hm s hc => ?steps⟩
  case completes => exact exec_pop_completes h s
  case badRegister => exact exec_raises_first (i := .pop a) rfl ha s
  case steps => exact stepWith_stepsAs hm .pop hc

/-! ## CALL -/

theorem exec_call_of_lt {a : Byte} (h : a.toNat < 8) {s : State} (hpc : s.pc ≤ 253) :
    exec (.call a) s = .next ((s.decSp.setByte (s.sp - 1).toNat (BitVec.ofNat 8 (s.pc + 2))).setPc
      (s.pushed ⟨a.toNat, h⟩).toNat) := by
  rw [← State.decSp_reg_eq_pushed, ← decWrap_eq]
  exact (execCall_eq a s).trans ((dif_pos h).trans (if_pos (by omega)))

/-- The target of a CALL is the register, read after the decrement: the byte PUSH would store. -/
theorem State.setByte_setPc_callEffect {s : State} (hw : s.mem.wf) (r : RegIdx) :
    CallEffect r s
      ((s.decSp.setByte (s.sp - 1).toNat (BitVec.ofNat 8 (s.pc + 2))).setPc (s.pushed r).toNat) where
  sp := s.decSp_sp_eq
  stored := State.setByte_storedOnly (s := s.decSp) hw _ _
  pc := rfl
  regs _ hq := State.setReg_reg_ne s 7 _ hq
  status := ⟨rfl, rfl⟩
  out := rfl

theorem exec_call_completes {a : Byte} {s : State} (h : a.toNat < 8) (hw : s.mem.wf) (hpc : s.pc ≤ 253) :
    ∃ t, exec (.call a) s = .next t ∧ CallEffect ⟨a.toNat, h⟩ s t :=
  ⟨_, exec_call_of_lt h hpc, State.setByte_setPc_callEffect hw _⟩

/-- Settles O31: a legal register byte and a return address that fits let CALL complete (`exec_call_completes`); the
address that does not fit is CALL's own fault, the others and the fetch are those of every operation. -/
theorem callPushesTheReturnAddress : Obligations.CallPushesTheReturnAddress := by
  refine ⟨fun a s h hw hpc => ?completes, fun a s ha hpc => ?returnAddress, fun a s ha => ?badRegister,
    fun m hm s hc => ?steps⟩
  case completes => exact exec_call_completes h hw hpc
  case returnAddress => exact exec_call_outOfBounds ha hpc
  case badRegister => exact exec_raises_first (i := .call a) rfl ha s
  case steps => exact stepWith_stepsAs hm .call hc

/-! ## RET -/

theorem State.setPc_incSp_retEffect (s : State) : RetEffect s ((s.setPc (s.mem.read s.sp.toNat).toNat).incSp) where
  pc := rfl
  sp := by rw [State.incSp_sp_eq, State.setPc_sp]
  regs _ hq := State.setReg_reg_ne (s.setPc _) 7 _ hq
  mem _ := rfl
  status := ⟨rfl, rfl⟩
  out := rfl

theorem exec_ret_completes (s : State) : ∃ t, exec .ret s = .next t ∧ RetEffect s t :=
  ⟨_, execRet_eq s, s.setPc_incSp_retEffect⟩

/-- Settles O32: RET makes no check, since the stack pointer is a byte and so inside memory. -/
theorem retJumpsToTheTopOfStack : Obligations.RetJumpsToTheTopOfStack :=
  ⟨exec_ret_completes, fun _ hm _ hc => stepWith_stepsAs hm .ret hc⟩

/-! ## The two's-complement reading -/

theorem addWrap_eq (p q : Byte) : addWrap p q = p + q :=
  BitVec.eq_of_toNat_eq ((addWrap_toNat p q).trans (BitVec.toNat_add p q).symm)

theorem mulWrap_eq (p q : Byte) : mulWrap p q = p * q :=
  BitVec.eq_of_toNat_eq ((mulWrap_toNat p q).trans (BitVec.toNat_mul p q).symm)

/-- What an arithmetic meaning leaves in its destination. -/
theorem execArith_dest (f : Byte → Byte → Byte) {a b : Byte} (ha : a.toNat < 8) (hb : b.toNat < 8) (s : State) :
    ∃ t, execArith f a b s = .next t ∧
      t.reg ⟨a.toNat, ha⟩ = f (s.reg ⟨a.toNat, ha⟩) (s.reg ⟨b.toNat, hb⟩) :=
  ⟨_, execArith_of_lt f ha hb s, State.setReg_reg_same _ _ _⟩

/-- Settles O33: ADD and MUL are the addition and multiplication of bit vectors, of which the library knows the
two's-complement reading. -/
theorem signedReadingGivesTheSameBits : Obligations.SignedReadingGivesTheSameBits := by
  intro a b s ha hb
  obtain ⟨t, ht, hadd⟩ := execArith_dest addWrap ha hb s
  obtain ⟨u, hu, hmul⟩ := execArith_dest mulWrap ha hb s
  refine ⟨⟨t, ht, ?sum⟩, ⟨u, hu, ?product⟩⟩
  case sum => rw [hadd, addWrap_eq]; exact BitVec.toInt_add _ _
  case product => rw [hmul, mulWrap_eq]; exact BitVec.toInt_mul _ _

end Sys2Proof.Machine
end

section
/-! PROOFS. The canonical form of memory (20_memory.md rules R40 and R53), the stack discipline (43_stack.md rules R122 and
R123) and the linkage of CALL and RET (44_call_return.md rule R132). -/

namespace Sys2Proof.Machine

/-! ## Equal memories -/

/-- The first address a canonical memory lists tells it from any memory that lists only greater ones. -/
theorem Memory.read_head_ne {c : Host.Cell} {m n : Memory} (hw : Memory.wf (c :: m)) (hn : ∀ d ∈ n, c.1 < d.1) :
    Memory.read (c :: m) c.1 ≠ n.read c.1 := by
  obtain ⟨-, -, hc, -⟩ := Memory.wf_cons.1 hw
  rwa [Memory.read_below hn, show c = (c.1, c.2) from rfl, Memory.read_cons_same]

/-- All a canonical memory lists lies above an address below its first. -/
theorem Memory.above_of_lt_head {a : Nat} {d : Host.Cell} {n : Memory} (hw : Memory.wf (d :: n)) (ha : a < d.1) :
    ∀ e ∈ d :: n, a < e.1 := by
  obtain ⟨hlt, -⟩ := Memory.wf_cons.1 hw
  exact List.forall_mem_cons.2 ⟨ha, fun e he => ha.trans (hlt e he)⟩

/-- Canonical memories with the same first address that read the same have the same first cell, and their tails read the
same. -/
theorem Memory.tail_read_eq {k : Nat} {v w : Byte} {m n : Memory} (hm : Memory.wf ((k, v) :: m))
    (hn : Memory.wf ((k, w) :: n))
    (h : ∀ a, a < 256 → Memory.read ((k, v) :: m) a = Memory.read ((k, w) :: n) a) :
    v = w ∧ ∀ a, a < 256 → m.read a = n.read a := by
  obtain ⟨hmlt, hk, -, -⟩ := Memory.wf_cons.1 hm
  obtain ⟨hnlt, -⟩ := Memory.wf_cons.1 hn
  refine ⟨by simpa only [Memory.read_cons_same] using h k hk, fun a ha => ?_⟩
  by_cases hak : k = a
  · subst hak; rw [Memory.read_below hmlt, Memory.read_below hnlt]
  · simpa only [Memory.read_cons_ne hak] using h a ha

/-- Settles O35, by induction on the one list and cases of the other: a first address that one of them alone lists, or lists
first, is read differently. -/
theorem memoriesThatReadTheSameAreEqual : Obligations.MemoriesThatReadTheSameAreEqual := by
  intro m
  induction m with
  | nil =>
    intro n _ hn h
    cases n with
    | nil => rfl
    | cons d n =>
      obtain ⟨-, hd, -⟩ := Memory.wf_cons.1 hn
      exact absurd (h d.1 hd).symm (Memory.read_head_ne hn (by simp))
  | cons c m ih =>
    intro n hm hn h
    obtain ⟨-, hc, -, hm'⟩ := Memory.wf_cons.1 hm
    cases n with
    | nil => exact absurd (h c.1 hc) (Memory.read_head_ne hm (by simp))
    | cons d n =>
      obtain ⟨-, hd, -, hn'⟩ := Memory.wf_cons.1 hn
      rcases Nat.lt_trichotomy c.1 d.1 with hlt | heq | hgt
      · exact absurd (h c.1 hc) (Memory.read_head_ne hm (Memory.above_of_lt_head hn hlt))
      · obtain ⟨k, v⟩ := c
        obtain ⟨_, w⟩ := d
        obtain rfl : k = _ := heq
        obtain ⟨rfl, htail⟩ := Memory.tail_read_eq hm hn h
        rw [ih n hm' hn' htail]
      · exact absurd (h d.1 hd).symm (Memory.read_head_ne hn (Memory.above_of_lt_head hm hgt))

/-! ## PUSH and POP -/

/-- A register operand names register 7 exactly where its byte is 7. -/
theorem regIdx_eq_seven {n : Nat} (h : n < 8) : (⟨n, h⟩ : RegIdx) = 7 ↔ n = 7 := Fin.ext_iff

theorem State.pushed_seven (s : State) : s.pushed 7 = s.sp - 1 := if_pos rfl

theorem State.pushed_ne (s : State) {r : RegIdx} (h : r ≠ 7) : s.pushed r = s.reg r := if_neg h

/-- What a POP does after a PUSH whose stack pointer and stored byte are still there: it loads that byte, and the stack
pointer is as before the PUSH, unless it is the register loaded. -/
theorem PopEffect.of_push {q r : RegIdx} {s t u v : State} (hpush : PushEffect q s t) (hpop : PopEffect r u v)
    (hsp : u.sp = t.sp) (hmem : u.mem.read t.sp.toNat = t.mem.read t.sp.toNat) :
    (r ≠ 7 → v.reg r = s.pushed q) ∧ v.sp = if r = 7 then s.pushed q + 1 else s.sp := by
  have htop : u.mem.read u.sp.toNat = s.pushed q := by
    rw [hsp, hmem, hpush.sp]
    exact hpush.stored.1
  refine ⟨fun h7 => (hpop.dest h7).trans htop, ?_⟩
  rw [hpop.sp, htop, hsp, hpush.sp]
  split
  · rfl
  · exact sub_add_cancel s.sp 1

/-- Settles O36: the byte pushed is the register's, and of register 7 it is one less, which POP makes good. -/
theorem pushPopRestoresTheRegister : Obligations.PushPopRestoresTheRegister := by
  intro a s h hw
  obtain ⟨t, ht, hpush⟩ := exec_push_completes h hw
  refine ⟨t, ht, fun u hsp hmem => ?_⟩
  obtain ⟨v, hv, hpop⟩ := exec_pop_completes h u
  obtain ⟨hreg, hvsp⟩ := hpop.of_push hpush hsp hmem
  refine ⟨v, hv, ?_⟩
  by_cases h7 : (⟨a.toNat, h⟩ : RegIdx) = 7
  · have hback : v.sp = s.sp := by rw [hvsp, if_pos h7, h7, State.pushed_seven]; exact sub_add_cancel s.sp 1
    rw [h7]
    exact ⟨hback, hback⟩
  · rw [hreg h7, hvsp, if_neg h7, State.pushed_ne s h7]
    exact ⟨rfl, rfl⟩

theorem execAll_cons {i : Instr} {s t : State} (h : exec i s = .next t) (is : List Instr) :
    execAll (i :: is) s = execAll is t := by
  simp only [execAll, h]

/-- Settles O37: the POP is one on the very state the PUSH left. -/
theorem pushThenPopCopies : Obligations.PushThenPopCopies := by
  intro a b s ha hb hw
  obtain ⟨t, ht, hpush⟩ := exec_push_completes hb hw
  obtain ⟨v, hv, hpop⟩ := exec_pop_completes ha t
  obtain ⟨hreg, hvsp⟩ := hpop.of_push hpush rfl rfl
  refine ⟨v, by rw [execAll_cons ht, execAll_cons hv]; rfl, ?_⟩
  have hp7 (h : b.toNat = 7) : s.pushed ⟨b.toNat, hb⟩ = s.sp - 1 := if_pos ((regIdx_eq_seven hb).2 h)
  have hp (h : b.toNat ≠ 7) : s.pushed ⟨b.toNat, hb⟩ = s.reg ⟨b.toNat, hb⟩ := s.pushed_ne (mt (regIdx_eq_seven hb).1 h)
  simp only [regIdx_eq_seven, ne_eq] at hreg hvsp
  refine ⟨fun ha7 => ⟨?spKept, fun hb7 => ?copied, fun hb7 => ?copiedSp⟩, fun ha7 hb7 => ?intoSp, fun ha7 hb7 => ?spToSp⟩
  case spKept => rw [hvsp, if_neg ha7]
  case copied => rw [hreg ha7, hp hb7]
  case copiedSp => rw [hreg ha7, hp7 hb7]
  case intoSp => rw [hvsp, if_pos ha7, hp hb7]
  case spToSp => rw [hvsp, if_pos ha7, hp7 hb7]; exact sub_add_cancel s.sp 1

/-! ## CALL and RET -/

/-- The return address of a CALL that completes, as the number it is. -/
theorem returnAddress_toNat {n : Nat} (h : n ≤ 253) : (BitVec.ofNat 8 (n + 2)).toNat = n + 2 := by
  rw [BitVec.toNat_ofNat]; omega

/-- A RET after a CALL whose stack pointer and stored byte are still there goes to the instruction after the CALL. -/
theorem RetEffect.of_call {r : RegIdx} {s t u v : State} (hcall : CallEffect r s t) (hret : RetEffect u v)
    (hpc : s.pc ≤ 253) (hsp : u.sp = t.sp) (hmem : u.mem.read t.sp.toNat = t.mem.read t.sp.toNat) :
    v.pc = s.pc + 2 ∧ v.sp = s.sp := by
  constructor
  · rw [hret.pc, hsp, hmem, hcall.sp, hcall.stored.1, returnAddress_toNat hpc]
  · rw [hret.sp, hsp, hcall.sp]
    exact sub_add_cancel s.sp 1

/-- Settles O38 by `RetEffect.of_call`. -/
theorem retReturnsAfterTheCall : Obligations.RetReturnsAfterTheCall := by
  intro a s h hw hpc
  obtain ⟨t, ht, hcall⟩ := exec_call_completes h hw hpc
  refine ⟨t, ht, fun u hsp hmem => ?_⟩
  obtain ⟨v, hv, hret⟩ := exec_ret_completes u
  exact ⟨v, hv, hret.of_call hcall hpc hsp hmem⟩

/-! ## Nested CALLs

The arithmetic of the stack slots is that of bytes, stated at the width 8 as a numeral. -/

theorem sub_one_sub_ofNat (x : BitVec 8) (n : Nat) : x - 1 - BitVec.ofNat 8 n = x - BitVec.ofNat 8 (n + 1) := by
  bv_omega

theorem add_one_add_ofNat (x : BitVec 8) (n : Nat) : x + 1 + BitVec.ofNat 8 n = x + BitVec.ofNat 8 (n + 1) := by
  bv_omega

/-- A slot more than `n` below `p` is another than `p`, and at least `n` below the one under `p`. -/
theorem below_of_succ_le {p x : BitVec 8} {n : Nat} (h : n + 1 ≤ (p - x).toNat) :
    x.toNat ≠ p.toNat ∧ n ≤ (p - 1 - x).toNat := by
  bv_omega

/-- Going down one from `p`, past 0 or not, it takes 255 more to come back to `p`. -/
theorem sub_one_sub_self (p : BitVec 8) : (p - 1 - p).toNat = 255 := by bv_omega

theorem execAll_cons_next {i : Instr} {is : List Instr} {s t : State} (h : execAll (i :: is) s = .next t) :
    ∃ u, exec i s = .next u ∧ execAll is u = .next t := by
  obtain ⟨u, hu⟩ := exec_next i s
  exact ⟨u, hu, by rwa [execAll_cons hu] at h⟩

/-- No meaning clears a fault, so a sequence that ends without one began without one. -/
theorem execAll_fault_none {is : List Instr} {s t : State} (h : execAll is s = .next t) (ht : t.fault = none) :
    s.fault = none := by
  induction is generalizing s with
  | nil => cases h; exact ht
  | cons i is ih =>
    obtain ⟨u, hu, hrest⟩ := execAll_cons_next h
    have hfault : u.fault = none := ih hrest
    rcases exec_cases hu with ⟨b, -, -, rfl⟩ | ⟨a, -, -, -, rfl⟩ | ⟨-, hsame⟩
    · cases hfault
    · cases hfault
    · exact hsame.symm.trans hfault

/-- A CALL that leaves no fault stood at an address whose return address fits, and has CALL's effect. -/
theorem exec_call_effect {a : Byte} {s t : State} (ha : a.toNat < 8) (hw : s.mem.wf) (h : exec (.call a) s = .next t)
    (ht : t.fault = none) : s.pc ≤ 253 ∧ CallEffect ⟨a.toNat, ha⟩ s t := by
  rcases Nat.lt_or_ge 253 s.pc with hpc | hpc
  · cases h.symm.trans (exec_call_outOfBounds ha hpc)
    cases ht
  · obtain ⟨u, hu, hcall⟩ := exec_call_completes ha hw hpc
    cases h.symm.trans hu
    exact ⟨hpc, hcall⟩

/-- What CALLs executed one after another leave: the stack pointer is less by their number, and no byte is written but at
the slots below it, as many as there are CALLs.  A slot is told by its distance down from the first one written. -/
theorem execAll_calls {as : List Byte} {s t : State} (hw : s.mem.wf) (has : ∀ a ∈ as, a.toNat < 8)
    (h : execAll (as.map .call) s = .next t) (ht : t.fault = none) :
    t.sp = s.sp - BitVec.ofNat 8 as.length ∧
      ∀ x : Byte, as.length ≤ (s.sp - 1 - x).toNat → t.mem.read x.toNat = s.mem.read x.toNat := by
  induction as generalizing s with
  | nil => cases h; exact ⟨(BitVec.sub_zero _).symm, fun _ _ => rfl⟩
  | cons a as ih =>
    obtain ⟨u, hu, hrest⟩ := execAll_cons_next h
    obtain ⟨ha, has⟩ := List.forall_mem_cons.1 has
    obtain ⟨-, hcall⟩ := exec_call_effect ha hw hu (execAll_fault_none hrest ht)
    obtain ⟨hsp, hmem⟩ := ih (exec_wf hw hu) has hrest
    rw [hcall.sp] at hsp hmem
    rw [List.length_cons]
    refine ⟨?_, fun x hx => ?_⟩
    · rw [hsp, sub_one_sub_ofNat]
    · obtain ⟨hne, hbelow⟩ := below_of_succ_le hx
      rw [hmem x hbelow, hcall.stored.2 _ hne]

/-- What RETs executed one after another leave: memory as it was, the stack pointer more by their number, and the program
counter at the byte the last of them read. -/
theorem execAll_rets (n : Nat) (s : State) :
    ∃ t, execAll (List.replicate (n + 1) .ret) s = .next t ∧ t.sp = s.sp + BitVec.ofNat 8 (n + 1) ∧
      t.pc = (s.mem.read (s.sp + BitVec.ofNat 8 n).toNat).toNat := by
  induction n generalizing s with
  | zero =>
    obtain ⟨t, ht, hret⟩ := exec_ret_completes s
    exact ⟨t, execAll_cons ht [], hret.sp, by rw [hret.pc, BitVec.add_zero]⟩
  | succ n ih =>
    obtain ⟨u, hu, hret⟩ := exec_ret_completes s
    obtain ⟨t, ht, hsp, hpc⟩ := ih u
    have hsum (k : Nat) : u.sp + BitVec.ofNat 8 k = s.sp + BitVec.ofNat 8 (k + 1) := by rw [hret.sp, add_one_add_ofNat]
    rw [hsum] at hsp hpc
    exact ⟨t, (execAll_cons hu _).trans ht, hsp, by rw [hpc, hret.mem]⟩

/-- Settles O39: the CALLs after the first write at most 255 slots below its own, so the last RET still finds its return
address there. -/
theorem nestedCallsReturnToTheFirst : Obligations.NestedCallsReturnToTheFirst := by
  intro as s t hw hne hlen has _ h ht
  cases as with
  | nil => exact absurd rfl hne
  | cons a as =>
    obtain ⟨u, hu, hrest⟩ := execAll_cons_next h
    obtain ⟨ha, has⟩ := List.forall_mem_cons.1 has
    obtain ⟨hpc, hcall⟩ := exec_call_effect ha hw hu (execAll_fault_none hrest ht)
    obtain ⟨hsp, hmem⟩ := execAll_calls (exec_wf hw hu) has hrest ht
    obtain ⟨v, hv, hvsp, hvpc⟩ := execAll_rets as.length t
    have htop : t.sp + BitVec.ofNat 8 as.length = s.sp - 1 := by
      rw [hsp, hcall.sp]; exact sub_add_cancel _ _
    have hfar : as.length ≤ (u.sp - 1 - (s.sp - 1)).toNat := by
      rw [hcall.sp, sub_one_sub_self]
      exact Nat.le_of_succ_le_succ hlen
    have hkept : t.mem.read (s.sp - 1).toNat = BitVec.ofNat 8 (s.pc + 2) := (hmem _ hfar).trans hcall.stored.1
    refine ⟨v, hv, ?_, ?_⟩
    · rw [hvpc, htop, hkept, returnAddress_toNat hpc]
    · rw [hvsp, hsp, hcall.sp, sub_one_sub_ofNat]; exact sub_add_cancel _ _

/-! ## The wrap of the stack pointer -/

/-- Settles O40: the effects of the four instructions at the two ends, where byte subtraction and addition wrap. -/
theorem theStackPointerWrapsAtBothEnds : Obligations.TheStackPointerWrapsAtBothEnds := by
  intro a s h hw hs
  have hlow : (0 : Byte) - 1 = 255 := by decide
  have hhigh : (255 : Byte) + 1 = 0 := by decide
  refine ⟨fun hsp => ⟨?push, fun hpc => ?call⟩, fun hsp => ⟨?pop, ?ret⟩⟩
  case push =>
    obtain ⟨t, ht, hpush⟩ := exec_push_completes h hw
    have hstored := hpush.stored.1
    simp only [hsp, hlow, regIdx_eq_seven] at hstored
    exact ⟨t, ht, by rw [hpush.sp, hsp, hlow], hpush.status.2.trans hs, hstored⟩
  case call =>
    obtain ⟨t, ht, hcall⟩ := exec_call_completes h hw hpc
    have hstored := hcall.stored.1
    simp only [hsp, hlow] at hstored
    refine ⟨t, ht, by rw [hcall.sp, hsp, hlow], hcall.status.2.trans hs, ?_⟩
    exact (congrArg BitVec.toNat hstored).trans (returnAddress_toNat hpc)
  case pop =>
    obtain ⟨t, ht, hpop⟩ := exec_pop_completes h s
    have hdest := hpop.dest
    have htsp := hpop.sp
    simp only [hsp, regIdx_eq_seven, ne_eq] at hdest htsp
    refine ⟨t, ht, hpop.status.2.trans hs, fun h7 => ⟨hdest h7, ?_⟩, fun h7 => ?_⟩
    · rw [htsp, if_neg h7, hhigh]
    · rw [htsp, if_pos h7]; rfl
  case ret =>
    obtain ⟨t, ht, hret⟩ := exec_ret_completes s
    have hpc := hret.pc
    rw [hsp] at hpc
    exact ⟨t, ht, hret.status.2.trans hs, hpc, by rw [hret.sp, hsp, hhigh]⟩

/-! ## Stores and the next fetch -/

/-- A byte stored where the program counter stands is the first one fetched. -/
theorem fetchBytes_head_of_stored {x v : Byte} {s t : State} (hstored : StoredOnly x.toNat v s t) (hpc : x.toNat = t.pc) :
    (fetchBytes t).head? = some v := by
  obtain ⟨hread, -⟩ := hstored
  rw [fetchBytes_cons (hpc ▸ byte_toNat_lt x), ← hpc, hread, List.head?_cons]

/-- Settles O41: each of the three effects says what is stored and where. -/
theorem aStoreIsSeenByTheNextFetch : Obligations.AStoreIsSeenByTheNextFetch := by
  refine ⟨fun a b s ha hb hw => ?st, fun a s h hw => ?push, fun a s h hw hpc => ?call⟩
  case st =>
    have hst := State.setByte_advance_stEffect hw ⟨a.toNat, ha⟩ ⟨b.toNat, hb⟩
    exact ⟨_, exec_st_of_lt ha hb s, fetchBytes_head_of_stored hst.stored⟩
  case push =>
    obtain ⟨t, ht, hpush⟩ := exec_push_completes h hw
    have hstored := hpush.stored
    simp only [regIdx_eq_seven] at hstored
    exact ⟨t, ht, fetchBytes_head_of_stored hstored⟩
  case call =>
    obtain ⟨t, ht, hcall⟩ := exec_call_completes h hw hpc
    refine ⟨t, ht, fun h7 => ?_, fetchBytes_head_of_stored hcall.stored⟩
    rw [hcall.pc, if_pos ((regIdx_eq_seven h).2 h7)]

end Sys2Proof.Machine
end
